-- ==== Sys2Proof/Word.lean ====
section
/-!
DEFINITION. The two word types of the block and the check that a word lies in the row width.

A row word has WIDTH bits, WIDTH at most 32 (spec 00_scope.md R6). It is held in a 32-bit word, which is also
the width of a command-port word (30_encoding.md R46), with the typing invariant that its value is below 2^WIDTH
(10_state.md R25).
-/

namespace Sys2Proof

/-- One cascade byte (10_state.md R22, 30_encoding.md R54). -/
abbrev Byte := BitVec 8

/-- One command-port word, and the container of one row word (30_encoding.md R46, R48). -/
abbrev Word := BitVec 32

/-- One frame buffer's contents, row 0 first (10_state.md R13, R14). -/
abbrev Frame := List Word

/-- The word is a row word of `width` bits: no bit at or above `width` is set (30_encoding.md R48). -/
def Word.fits (width : Nat) (w : Word) : Bool := decide (w.toNat < 2 ^ width)

/-- `trunc_width` of 00_scope.md section 6, in a 32-bit container: the number modulo 2^width. -/
def Word.trunc (width n : Nat) : Word := BitVec.ofNat 32 (n % 2 ^ width)

end Sys2Proof
end

