-- ==== Sys2Proof/Config.lean ====
section
/-!
DEFINITION. The parameters of an instance (spec 00_scope.md R5, R6), the optional switches the spec names, and the
free values.
-/

namespace Sys2Proof

/-- The parameters of one instance; fixed for a run (00_scope.md R5, R6). -/
structure Config where
  /-- ROWS: grid row count, the number of words in each frame buffer. -/
  rows : Nat
  /-- WIDTH: pixels per row. -/
  width : Nat
  /-- N_DEVICES: number of cascaded 8-bit devices. -/
  nDevices : Nat
  /-- SUBMIT_ATOMIC (70_reset_and_hazards.md R132): true is guarded mode, false is reference mode. -/
  submitAtomic : Bool
  /-- BANK_A_FIRST (92_eei_decisions.md D9): false reverses the row-select bytes among themselves. -/
  bankAFirst : Bool
  /-- SHIFT_OVERWIDE (93_implementation_defined.md U3): true is `zero`, false is `any`. -/
  overwideZero : Bool
  /-- CUR_RESET (10_state.md R28, 93_implementation_defined.md U14). -/
  curReset : Frame
  /-- PEND_RESET (10_state.md R28, 93_implementation_defined.md U14). -/
  pendReset : Frame
deriving DecidableEq, Repr

namespace Config

/-- The instance with these three parameters in the spec's normative setting: guarded mode, bank A first, an
over-wide shift clears, both frames start at zero. -/
def normative (rows width nDevices : Nat) : Config :=
  { rows := rows, width := width, nDevices := nDevices, submitAtomic := true, bankAFirst := true,
    overwideZero := true, curReset := List.replicate rows 0, pendReset := List.replicate rows 0 }

/-- The reference configuration (00_scope.md R2). -/
def reference : Config := normative 12 32 6

/-- The small configuration (00_scope.md R2). -/
def small : Config := normative 2 8 2

/-- NSEL, the number of row-select bytes: ceil(ROWS / 8) (00_scope.md R5). -/
def nsel (c : Config) : Nat := (c.rows + 7) / 8

/-- NPIX, the number of pixel bytes: WIDTH / 8 (00_scope.md R5). -/
def npix (c : Config) : Nat := c.width / 8

/-- N, the payload length: NSEL + NPIX (00_scope.md R5). -/
def n (c : Config) : Nat := c.nsel + c.npix

/-- RW, the width of the row index register: max(1, ceil(log2 ROWS)) (00_scope.md R5). -/
def rw (c : Config) : Nat := max 1 (Nat.clog 2 c.rows)

/-- A frame of this instance: exactly ROWS words, each a row word of WIDTH bits (10_state.md R13, R14, R25). -/
def frameOk (c : Config) (f : Frame) : Bool := f.length == c.rows && f.all (Word.fits c.width)

/-- A legal configuration (00_scope.md R6), with reset frames of the instance's shape. -/
def legal (c : Config) : Bool :=
  decide (1 ≤ c.rows) && decide (c.rows ≤ 256) &&
  (c.width == 8 || c.width == 16 || c.width == 24 || c.width == 32) &&
  c.nDevices == c.nsel + c.npix && c.frameOk c.curReset && c.frameOk c.pendReset

/-- TICK_RATE, OPEN: no rule reads it (00_scope.md R5, 92_eei_decisions.md D4; log entry 20). -/
opaque tickRate : Nat

/-- GATE_COUNTER_WIDTH, OPEN and unused (92_eei_decisions.md D29; log entry 20). -/
opaque gateCounterWidth : Nat

/-- Free bytes: the value of SHIFT, OUT and PAY that RESET leaves open (93_implementation_defined.md U6, U22;
log entry 3). Nothing constrains them. -/
opaque freeByte : Nat → Byte

/-- Free words: the rows after an over-wide shift when SHIFT_OVERWIDE is `any` (93_implementation_defined.md U3;
log entry 8). Nothing constrains them but that the model keeps their low WIDTH bits. -/
opaque freeWord : Nat → Word

end Config

end Sys2Proof
end

