-- ==== Sys2Proof/Syntax.lean ====
section
/-!
DEFINITION. The seven operations (spec/opcode_table.json) and the events by which they reach the block.
-/

namespace Sys2Proof

/-- The block's operations, one constructor for each row of spec/opcode_table.json (00_scope.md R8). -/
inductive Instr where
  /-- RESET, pin `rst_i` (70_reset_and_hazards.md R123). -/
  | reset
  /-- TICK, pin `tick_i` (41_frame_engine.md R73). -/
  | tick
  /-- SUBMIT B: a bitmap of ROWS row words, row 0 first (42_producer_ops.md R81). -/
  | submit (bitmap : Frame)
  /-- SHL k, k an unsigned amount 0 .. 255 (42_producer_ops.md R82). -/
  | shl (amount : BitVec 8)
  /-- SHR k, k an unsigned amount 0 .. 255 (42_producer_ops.md R83). -/
  | shr (amount : BitVec 8)
  /-- PUBLISH (42_producer_ops.md R84). -/
  | publish
  /-- WRROW r, v: a row number and a row word (42_producer_ops.md R85). -/
  | wrrow (rowf : BitVec 8) (value : Word)
deriving DecidableEq, Repr

/-- The operations that cross the command port; the other two are pin events (30_encoding.md R49, R53). -/
def Instr.isCommand : Instr → Bool
  | .reset => false
  | .tick => false
  | .submit _ => true
  | .shl _ => true
  | .shr _ => true
  | .publish => true
  | .wrrow _ _ => true

/-- One event at the block's boundary (30_encoding.md R46, R53). -/
inductive Input where
  /-- A pulse on `rst_i`. -/
  | rst
  /-- A strobe on `tick_i`. -/
  | tick
  /-- One strobe of `cmd_valid` with this `cmd_data`. -/
  | word (w : Word)
  /-- Reference mode only (70_reset_and_hazards.md R132): the host performs one micro-step of the frame-wide
  operation it has begun, the one numbered `choice` among the rows left. -/
  | hostStep (choice : Nat)
deriving DecidableEq, Repr

end Sys2Proof
end

