-- ==== Sys2Proof/WellFormed.lean ====
section
/-!
DEFINITION. Well-formed operations of an instance: the operand ranges of spec 42_producer_ops.md R81 to R85.
-/

namespace Sys2Proof

/-- The row number names a row: 0 ≤ r < ROWS (42_producer_ops.md R85, 20_memory.md R37). -/
def Config.rowOk (c : Config) (r : BitVec 8) : Bool := decide (r.toNat < c.rows)

/-- Every operand of the operation is in its range (42_producer_ops.md R81 to R85, 30_encoding.md R58). A shift
amount is any 8-bit value (R82). -/
def WellFormed (c : Config) : Instr → Bool
  | .reset => true
  | .tick => true
  | .submit b => c.frameOk b
  | .shl _ => true
  | .shr _ => true
  | .publish => true
  | .wrrow r v => c.rowOk r && Word.fits c.width v

end Sys2Proof
end

