-- ==== Sys2Proof/Decode.lean ====
section
/-!
DEFINITION. The command port's encoding (spec 30_encoding.md): header fields, opcode map, decoder and encoder, and
the reading of a word of spec/opcode_table.json.

The decoder reads the front of a list of command-port words and returns the operation and the words after it. It
is total; a list that is too short for its command is `incomplete`, which is no refusal: the command assembler
waits for more words (R50).
-/

namespace Sys2Proof

/-- Why the words at the front of a stream are not an operation. -/
inductive DecodeError where
  /-- The command is not whole yet (30_encoding.md R50). -/
  | incomplete
  /-- The header matches no row of the opcode map or has a nonzero reserved or unused field (R52). -/
  | illegalCommand
  /-- An operand word has a bit set at or above WIDTH (R48). -/
  | operandTooWide
  /-- WRROW with row number at or above ROWS (20_memory.md R37). -/
  | rowOutOfRange
deriving DecidableEq, Repr

/-- The four fields of a header word (30_encoding.md R47). -/
structure HeaderFields where
  /-- Bits 31:24. -/
  opc : BitVec 8
  /-- Bits 23:16. -/
  rsv : BitVec 8
  /-- Bits 15:8. -/
  rowf : BitVec 8
  /-- Bits 7:0. -/
  amt : BitVec 8
deriving DecidableEq, Repr

/-- The fields of a header word (30_encoding.md R47). -/
def headerFields (h : Word) : HeaderFields :=
  { opc := h.extractLsb' 24 8, rsv := h.extractLsb' 16 8, rowf := h.extractLsb' 8 8, amt := h.extractLsb' 0 8 }

/-- The header word with these fields (30_encoding.md R47). -/
def headerWord (f : HeaderFields) : Word := f.opc ++ f.rsv ++ f.rowf ++ f.amt

/-- A legal header: the command it begins, with the operands the header itself carries (30_encoding.md R49). -/
inductive Header where
  | submit
  | shl (amount : BitVec 8)
  | shr (amount : BitVec 8)
  | publish
  | wrrow (rowf : BitVec 8)
deriving DecidableEq, Repr

/-- The command a header word begins; none for an illegal header (30_encoding.md R47, R49, R52). -/
def decodeHeader (h : Word) : Option Header :=
  let f := headerFields h
  if f.rsv ≠ 0 then none
  else if f.opc = 0x01 then if f.rowf = 0 ∧ f.amt = 0 then some .submit else none
  else if f.opc = 0x02 then if f.rowf = 0 then some (.shl f.amt) else none
  else if f.opc = 0x03 then if f.rowf = 0 then some (.shr f.amt) else none
  else if f.opc = 0x04 then if f.rowf = 0 ∧ f.amt = 0 then some .publish else none
  else if f.opc = 0x05 then if f.amt = 0 then some (.wrrow f.rowf) else none
  else none

/-- How many operand words follow a header (30_encoding.md R49, R51). -/
def Header.operandWords (c : Config) : Header → Nat
  | .submit => c.rows
  | .shl _ => 0
  | .shr _ => 0
  | .publish => 0
  | .wrrow _ => 1

/-- The operation of a header and its operand words, with the check of WRROW's row number (30_encoding.md R50,
R58; 20_memory.md R37). -/
def Header.build (c : Config) (args : List Word) : Header → Except DecodeError Instr
  | .submit => .ok (.submit args)
  | .shl k => .ok (.shl k)
  | .shr k => .ok (.shr k)
  | .publish => .ok .publish
  | .wrrow r => if c.rowOk r then .ok (.wrrow r (args.headD 0)) else .error .rowOutOfRange

/-- Reads one command from the front of a word stream (30_encoding.md R50): the header, the length, then, once
every operand word is there, the check of every operand word (R48), then that of the row number. -/
def decode (c : Config) : List Word → Except DecodeError (Instr × List Word)
  | [] => .error .incomplete
  | h :: ops =>
    match decodeHeader h with
    | none => .error .illegalCommand
    | some hd =>
      if ops.length < hd.operandWords c then .error .incomplete
      else if !(ops.take (hd.operandWords c)).all (Word.fits c.width) then .error .operandTooWide
      else
        match hd.build c (ops.take (hd.operandWords c)) with
        | .ok i => .ok (i, ops.drop (hd.operandWords c))
        | .error e => .error e

/-- The fields of a legal header (30_encoding.md R49). -/
def Header.fields : Header → HeaderFields
  | .submit => ⟨0x01, 0, 0, 0⟩
  | .shl k => ⟨0x02, 0, 0, k⟩
  | .shr k => ⟨0x03, 0, 0, k⟩
  | .publish => ⟨0x04, 0, 0, 0⟩
  | .wrrow r => ⟨0x05, 0, r, 0⟩

/-- The words of an operation on the command port; none for a pin event (30_encoding.md R49, R59). -/
def encode : Instr → List Word
  | .reset => []
  | .tick => []
  | .submit b => headerWord Header.submit.fields :: b
  | .shl k => [headerWord (Header.shl k).fields]
  | .shr k => [headerWord (Header.shr k).fields]
  | .publish => [headerWord Header.publish.fields]
  | .wrrow r v => [headerWord (Header.wrrow r).fields, v]

/-- The events that deliver an operation: its pin, or its words in order (30_encoding.md R53, R59). -/
def Instr.events : Instr → List Input
  | .reset => [.rst]
  | .tick => [.tick]
  | .submit b => (encode (.submit b)).map .word
  | .shl k => (encode (.shl k)).map .word
  | .shr k => (encode (.shr k)).map .word
  | .publish => (encode .publish).map .word
  | .wrrow r v => (encode (.wrrow r v)).map .word

/-- Length of an operation in command-port words, as the opcode map gives it (30_encoding.md R49, R51); a pin
event has no word. -/
def Instr.lengthWords (c : Config) : Instr → Nat
  | .reset => 0
  | .tick => 0
  | .submit _ => 1 + c.rows
  | .shl _ => 1
  | .shr _ => 1
  | .publish => 1
  | .wrrow _ _ => 2

/-- One row of the opcode map: a header `h` selects the command when `h AND mask = value` (30_encoding.md R49). -/
structure OpcodeRow where
  mnemonic : String
  mask : Word
  value : Word
deriving DecidableEq, Repr

/-- The opcode map's masks and matches, as the table of 30_encoding.md R49 writes them. -/
def opcodeMap : List OpcodeRow :=
  [⟨"SUBMIT", 0xFFFFFFFF, 0x01000000⟩,
   ⟨"SHL", 0xFFFFFF00, 0x02000000⟩,
   ⟨"SHR", 0xFFFFFF00, 0x03000000⟩,
   ⟨"PUBLISH", 0xFFFFFFFF, 0x04000000⟩,
   ⟨"WRROW", 0xFFFF00FF, 0x05000000⟩]

/-- The header word selects the row (30_encoding.md R49). -/
def OpcodeRow.selects (row : OpcodeRow) (h : Word) : Bool := h &&& row.mask == row.value

/-- The name of the row a legal header stands for. -/
def Header.mnemonic : Header → String
  | .submit => "SUBMIT"
  | .shl _ => "SHL"
  | .shr _ => "SHR"
  | .publish => "PUBLISH"
  | .wrrow _ => "WRROW"

/-- The command-port words of the table word `w`: the header in bits 31:0, then as many operand words as the
header's command takes, each the next 32 bits; one word for an illegal header. -/
def tableWords (c : Config) (w : Nat) : List Word :=
  let h : Word := BitVec.ofNat 32 w
  let k := ((decodeHeader h).map (Header.operandWords c)).getD 0
  h :: (List.range k).map fun i => BitVec.ofNat 32 (w >>> (32 * (i + 1)))

/-- The operation the decoder reads from a table word, in the reference configuration. A row shorter than a
command word is a pin row. The table gives both pin rows the one pattern `1`; it is read as the tick strobe (log
entry 15). -/
def decodeTableWord (nbits w : Nat) : Option Instr :=
  if nbits < 32 then if w = 1 then some .tick else none
  else
    match decode Config.reference (tableWords Config.reference w) with
    | .ok (i, _) => some i
    | .error _ => none

end Sys2Proof
end

