-- ==== Sys2Proof/Machine/State.lean ====
section
/-!
DEFINITION. The state of the block (spec 10_state.md), the ways a step can stop, and the state after
RESET.
-/

namespace Sys2Proof.Machine

/-- The state of a control line, in the source's two words (00_scope.md section 6; LATCH, R17, and SRRST, R18). -/
inductive Level where
  | asserted
  | deasserted
deriving DecidableEq, Repr

/-- The state of the output-enable line (10_state.md R19). -/
inductive Enable where
  | enabled
  | disabled
deriving DecidableEq, Repr

/-- One event of OUT_TRACE (10_state.md R27). -/
inductive Event where
  | rstDeassert
  | rstAssert
  | latchIdle
  | oeEnable
  | latchDeassert
  | byte (b : Byte)
  | latchAssert
deriving DecidableEq, Repr

/-- The two row-addressed spaces (20_memory.md R29). -/
inductive Space where
  | cur
  | pend
deriving DecidableEq, Repr

/-- The block's memory: the two frame buffers, each a list of ROWS row words (10_state.md R13, R14; 20_memory.md
R29 to R31). A row has one place and one word, so equal memories are equal data (log entry 13). -/
structure Memory where
  /-- CUR, the frame being displayed. -/
  cur : Frame
  /-- PEND, the frame being written by the host. -/
  pend : Frame
deriving DecidableEq, Repr

/-- One row micro-step of a frame-wide host operation in reference mode (70_reset_and_hazards.md R132). -/
inductive RowStep where
  /-- `PEND[i] <- v`, from SUBMIT. -/
  | write (i : Nat) (v : Word)
  /-- `PEND[i] <- trunc_WIDTH(PEND[i] << k)`, from SHL. -/
  | shl (i : Nat) (k : BitVec 8)
  /-- `PEND[i] <- PEND[i] >> k`, from SHR. -/
  | shr (i : Nat) (k : BitVec 8)
deriving DecidableEq, Repr

/-- The row a micro-step writes. -/
def RowStep.row : RowStep → Nat
  | .write i _ => i
  | .shl i _ => i
  | .shr i _ => i

/-- What is left of the frame-wide host operation in progress, in reference mode (70_reset_and_hazards.md R132):
the row micro-steps, which may come in any order (93_implementation_defined.md U19), and then the flag write. -/
structure Foreground where
  rows : List RowStep
  flag : Bool
deriving DecidableEq, Repr

/-- No host operation in progress. -/
def Foreground.idle : Foreground := { rows := [], flag := false }

/-- The block raises no exception, trap, fault or error of any kind (60_exceptions.md R105), so there is no way to
fault. -/
inductive Fault where
deriving DecidableEq, Repr

/-- Why the model gives an input no meaning (60_exceptions.md R106). A refusal says nothing of the hardware and
ends the run; each is safe. -/
inductive Refusal where
  /-- Raised by an arm of `exec` that has no meaning yet. No arm is left so. Safe. -/
  | notModelled (mnemonic : String)
  /-- Raised by the command port on an illegal header word (30_encoding.md R52). Safe. -/
  | illegalCommand
  /-- Raised when a command with an operand word of more than WIDTH bits is complete (30_encoding.md R48). Safe. -/
  | operandTooWide
  /-- Raised when WRROW names a row at or above ROWS (20_memory.md R37). Safe. -/
  | rowOutOfRange
  /-- Raised by every step of an instance with illegal parameters (00_scope.md R6). Safe. -/
  | illegalConfiguration
  /-- Raised by every operation in a state that breaks the typing invariant (10_state.md R25). Safe. -/
  | illegalStartState
  /-- Raised by RESET anywhere but first in a run (70_reset_and_hazards.md R124). Safe. -/
  | secondReset
  /-- Raised by a tick or a word before RESET (93_implementation_defined.md U16; the name is the model's, log entry
  2). Safe. -/
  | beforeReset
  /-- Raised by a SUBMIT term whose bitmap has not ROWS rows, which no command word stream can deliver
  (42_producer_ops.md R87; the name is the model's, log entry 12). Safe. -/
  | partialBitmap
deriving DecidableEq, Repr

/-- The state of one block. `cfg`, `begun`, `inputs` and `freeIdx` are the model's own fields (log entries 1, 2, 5,
23); every other field is the spec's. -/
structure State where
  /-- The instance's parameters; no operation changes them (00_scope.md R6). -/
  cfg : Config
  /-- RESET has taken place (00_scope.md R8, 70_reset_and_hazards.md R124). -/
  begun : Bool
  /-- The events still to come, oldest first; one step takes one (30_encoding.md R46, R53; log entry 1). -/
  inputs : List Input
  /-- CUR and PEND (10_state.md R13, R14). -/
  mem : Memory
  /-- ROW, the active row index (10_state.md R15). -/
  row : Nat
  /-- UPD, the update-pending flag (10_state.md R16). -/
  upd : Bool
  /-- LATCH (10_state.md R17). -/
  latch : Level
  /-- SRRST (10_state.md R18). -/
  srrst : Level
  /-- OE (10_state.md R19). -/
  oe : Enable
  /-- PAY, the payload buffer (10_state.md R20). -/
  pay : List Byte
  /-- CMDQ, the command assembler (10_state.md R21). -/
  cmdq : List Word
  /-- SHIFT, the external shift stages, device 0 first (10_state.md R22). -/
  shift : List Byte
  /-- OUT, the external output pins, device 0 first (10_state.md R23). -/
  out : List Byte
  /-- OUT_TRACE, oldest event first (10_state.md R27). -/
  trace : List Event
  /-- Reference mode: what is left of the host operation in progress (70_reset_and_hazards.md R132). -/
  fg : Foreground
  /-- How many free values have been read (log entry 23). -/
  freeIdx : Nat
deriving DecidableEq, Repr

/-- What a step answers. -/
abbrev Result := Host.Outcome State Fault Refusal

/-- The state right after RESET of an instance: the values of 10_state.md R28. SHIFT, OUT and PAY, which R28 leaves
unspecified, are N zero bytes here (DESIGN CHOICE, log entry 3); the RESET operation itself gives them free
values. -/
def State.resetOf (c : Config) : State :=
  { cfg := c, begun := true, inputs := [], mem := { cur := c.curReset, pend := c.pendReset }, row := 0, upd := false,
    latch := .asserted, srrst := .asserted, oe := .enabled, pay := List.replicate c.n 0, cmdq := [],
    shift := List.replicate c.n 0, out := List.replicate c.n 0,
    trace := [.rstDeassert, .rstAssert, .latchIdle, .oeEnable], fg := .idle, freeIdx := 0 }

/-- The machine right after reset: the reference configuration (00_scope.md R2; log entry 5). -/
def State.reset : State := State.resetOf Config.reference

/-- A state before RESET, from which a run begins (00_scope.md R8). What it holds but for `begun` and an empty
trace (10_state.md R27) is of no account: RESET writes it all (log entry 2). -/
def State.powerOn (c : Config) : State := { State.resetOf c with begun := false, trace := [] }

end Sys2Proof.Machine
end

