-- ==== Sys2Proof/Machine/Flags.lean ====
section
/-!
DEFINITION. The block's one flag, UPD (spec 10_state.md R16): who sets it and who clears it; and
the status outputs (R26).
-/

namespace Sys2Proof.Machine

/-- `UPD <- 1`, by SUBMIT and PUBLISH (10_state.md R16, 42_producer_ops.md R81, R84). -/
def setUpd (s : State) : State := { s with upd := true }

/-- `UPD <- 0`, by the swap (10_state.md R16, 41_frame_engine.md R76). -/
def clearUpd (s : State) : State := { s with upd := false }

/-- Status output `upd_o`, a pure copy of UPD (10_state.md R26). -/
def State.updO (s : State) : BitVec 1 := BitVec.ofBool s.upd

/-- Status output `row_o`, a pure copy of ROW in RW bits (10_state.md R26). -/
def State.rowO (s : State) : BitVec s.cfg.rw := BitVec.ofNat s.cfg.rw s.row

end Sys2Proof.Machine
end

