-- ==== Sys2Proof/Machine/Operands.lean ====
section
/-!
DEFINITION. What the operations compute from their operands: the payload of a row (spec 30_encoding.md R54 to R56),
the shifted row word (42_producer_ops.md R82, R83), and the checks of a command's operands (30_encoding.md R48,
20_memory.md R37).
-/

namespace Sys2Proof.Machine

/-- `onehot8(j)`: exactly bit j set (00_scope.md section 6). -/
def onehot8 (j : Nat) : Byte := BitVec.ofNat 8 (1 <<< j)

/-- `RS(b, r)`: the row-select byte of bank b for active row r (30_encoding.md R55). -/
def rowSelect (b r : Nat) : Byte := if b = r / 8 then onehot8 (r % 8) else 0

/-- The row-select bytes in payload order: bank b at position b, or the reverse when BANK_A_FIRST is false
(30_encoding.md R54, 92_eei_decisions.md D9). -/
def rowSelectBytes (c : Config) (r : Nat) : List Byte :=
  let banks := (List.range c.nsel).map fun b => rowSelect b r
  if c.bankAFirst then banks else banks.reverse

/-- Pixel byte j of a row word, most significant byte first: `w[WIDTH-1-8j : WIDTH-8-8j]` (20_memory.md R34,
30_encoding.md R56). -/
def pixelByte (c : Config) (w : Word) (j : Nat) : Byte := w.extractLsb' (c.width - 8 - 8 * j) 8

/-- The payload of row r with row word w: row-select bytes, then pixel bytes (30_encoding.md R54). -/
def payload (c : Config) (r : Nat) (w : Word) : List Byte :=
  rowSelectBytes c r ++ (List.range c.npix).map (pixelByte c w)

/-- One row of SHL: `trunc_WIDTH(w << k)` (42_producer_ops.md R82, 43_invariants.md R95). -/
def shlWord (c : Config) (k : BitVec 8) (w : Word) : Word := Word.trunc c.width (w.toNat <<< k.toNat)

/-- One row of SHR: `floor(w / 2^k)` (42_producer_ops.md R83, 43_invariants.md R95). -/
def shrWord (k : BitVec 8) (w : Word) : Word := BitVec.ofNat 32 (w.toNat >>> k.toNat)

/-- The shift has a free result: SHIFT_OVERWIDE is `any` and the amount is at least WIDTH
(93_implementation_defined.md U3). Never so in the normative model. -/
def overwide (c : Config) (k : BitVec 8) : Bool := !c.overwideZero && decide (c.width ≤ k.toNat)

/-- The free row word number `i`: any value below 2^WIDTH (93_implementation_defined.md U3; log entry 8). -/
def freeRow (c : Config) (i : Nat) : Word := Word.trunc c.width (Config.freeWord i).toNat

/-- One row after a shift by k: `f` of the row word, or the free row word number `j` when the result is free. -/
def shiftedRow (c : Config) (k : BitVec 8) (f : Word → Word) (j : Nat) (w : Word) : Word :=
  if overwide c k then freeRow c j else f w

/-- How many free values a shift of `n` rows by k reads. -/
def freeUsed (c : Config) (k : BitVec 8) (n : Nat) : Nat := if overwide c k then n else 0

/-- The check of a SUBMIT bitmap: ROWS words (42_producer_ops.md R87), none too wide (30_encoding.md R48). -/
def checkBitmap (c : Config) (b : Frame) : Option Refusal :=
  if b.length ≠ c.rows then some .partialBitmap
  else if !b.all (Word.fits c.width) then some .operandTooWide
  else none

/-- The check of WRROW's operands: the operand word (30_encoding.md R48), then the row number (20_memory.md R37), in
the order of 30_encoding.md R50. -/
def checkRow (c : Config) (r : BitVec 8) (v : Word) : Option Refusal :=
  if !Word.fits c.width v then some .operandTooWide
  else if !c.rowOk r then some .rowOutOfRange
  else none

/-- What the command port answers to a command it cannot decode: a refusal of the same name (60_exceptions.md
R106); none while the command is not whole (30_encoding.md R50). -/
def refusalOf : DecodeError → Option Refusal
  | .incomplete => none
  | .illegalCommand => some .illegalCommand
  | .operandTooWide => some .operandTooWide
  | .rowOutOfRange => some .rowOutOfRange

end Sys2Proof.Machine
end

