-- ==== Sys2Proof/Machine/Typing.lean ====
section
/-!
DEFINITION. The typing invariant of a state between operations (spec 10_state.md R25), with the canonical form of
the memory, and the condition for an operation to take place.
-/

namespace Sys2Proof.Machine

/-- The canonical form: each buffer has exactly ROWS words, each below 2^WIDTH (10_state.md R13, R14, R25). -/
def Memory.wf (c : Config) (m : Memory) : Bool := c.frameOk m.cur && c.frameOk m.pend

/-- The micro-step is one of this instance: its row is in range and a word it writes is a row word. -/
def RowStep.ok (c : Config) : RowStep → Bool
  | .write i v => decide (i < c.rows) && Word.fits c.width v
  | .shl i _ => decide (i < c.rows)
  | .shr i _ => decide (i < c.rows)

/-- The micro-steps are steps of this instance, each row at most once. In guarded mode there are none
(70_reset_and_hazards.md R132, R133). -/
def Foreground.ok (c : Config) (fg : Foreground) : Bool :=
  fg.rows.all (RowStep.ok c) && decide (fg.rows.map RowStep.row).Nodup &&
  (!c.submitAtomic || fg == Foreground.idle)

/-- CMDQ holds nothing, or a legal header with fewer operand words than its command takes (10_state.md R21, R25;
log entry 10: the operands are checked at the last word, R50). -/
def cmdqOk (c : Config) : List Word → Bool
  | [] => true
  | h :: ops =>
    match decodeHeader h with
    | some hd => decide (ops.length < hd.operandWords c)
    | none => false

/-- The typing invariant of a state between operations (10_state.md R25), with the lengths that the spec's types
give the lists (R13, R14, R20, R22, R23). -/
def State.typed (s : State) : Bool :=
  s.mem.wf s.cfg && decide (s.row < s.cfg.rows) && s.latch == .asserted && s.srrst == .asserted &&
  s.oe == .enabled && cmdqOk s.cfg s.cmdq && s.pay.length == s.cfg.n && s.shift.length == s.cfg.n &&
  s.out.length == s.cfg.n && s.fg.ok s.cfg

/-- The block is running: a legal instance, after RESET, in a well-typed state. -/
def State.running (s : State) : Bool := s.cfg.legal && s.begun && s.typed

end Sys2Proof.Machine
end

