-- ==== Sys2Proof/Machine/Ops.lean ====
section
/-!
DEFINITION. The shared operations: frame-buffer access (spec 20_memory.md R33), the Cascade Driver
(40_cascade_driver.md R65 to R69), the row sequence and the swap (41_frame_engine.md R75, R76), the host's
micro-steps (70_reset_and_hazards.md R132), and the guards that refuse an input the spec gives no meaning
(60_exceptions.md R106).

There is no exception entry and no return from one: the block raises no exception (60_exceptions.md R105), and
taking a tick saves no state, changes no mode and masks nothing (R111, R112).
-/

namespace Sys2Proof.Machine

/-- The words of a space. -/
def Memory.space (m : Memory) : Space → Frame
  | .cur => m.cur
  | .pend => m.pend

/-- `MemRead(space, i)`: the whole row word i, none where there is no such row (20_memory.md R33). -/
def Memory.read (m : Memory) (sp : Space) (i : Nat) : Option Word := (m.space sp)[i]?

/-- `MemWrite(space, i, v)`: replaces row word i; a row number that names no location writes nothing
(20_memory.md R33, R37). -/
def Memory.write (m : Memory) (sp : Space) (i : Nat) (v : Word) : Memory :=
  match sp with
  | .cur => { m with cur := m.cur.set i v }
  | .pend => { m with pend := m.pend.set i v }

/-- Writes every row of PEND at once (20_memory.md R38). -/
def Memory.writePend (m : Memory) (f : Frame) : Memory := { m with pend := f }

/-- The adoption: `CUR[i] <- PEND[i]` for every i at once; PEND is unchanged (41_frame_engine.md R76). -/
def Memory.adopt (m : Memory) : Memory := { m with cur := m.pend }

/-- The pixel at column k of row r of a space (10_state.md R13, 20_memory.md R30). -/
def Memory.pixel (m : Memory) (sp : Space) (r k : Nat) : Bool := ((m.read sp r).getD 0).getLsbD k

/-- The events still to come are these. -/
def State.withInputs (s : State) (ins : List Input) : State := { s with inputs := ins }

/-- `CMDQ <- ws` (10_state.md R21, 30_encoding.md R50). -/
def State.withCmdq (s : State) (ws : List Word) : State := { s with cmdq := ws }

/-- `emit e` (10_state.md R27). -/
def emit (e : Event) (s : State) : State := { s with trace := s.trace ++ [e] }

/-- Drives the latch line. The deasserted to asserted edge copies SHIFT to OUT, all devices together; nothing else
changes OUT (40_cascade_driver.md R69). -/
def driveLatch (l : Level) (s : State) : State :=
  { s with latch := l, out := if s.latch = .deasserted ∧ l = .asserted then s.shift else s.out }

/-- `SendByte(b)` and its event: every shift stage moves one device along and b enters the nearest device
(40_cascade_driver.md R64, R68). -/
def sendByte (s : State) (b : Byte) : State :=
  { s with shift := s.shift.tail ++ [b], trace := s.trace ++ [.byte b] }

/-- `CascadeSend(p)` (40_cascade_driver.md R65). -/
def cascadeSend (p : List Byte) (s : State) : State :=
  let s1 := emit .latchDeassert (driveLatch .deasserted s)
  let s2 := p.foldl sendByte s1
  emit .latchAssert (driveLatch .asserted s2)

/-- Drives the cascade's reset line (10_state.md R18). -/
def driveSrrst (l : Level) (s : State) : State := { s with srrst := l }

/-- Drives the output-enable line (10_state.md R19). -/
def driveOe (o : Enable) (s : State) : State := { s with oe := o }

/-- `CascadeInit()` (40_cascade_driver.md R67). What it does to SHIFT and OUT is open (R70); see `openValues`. -/
def cascadeInit (s : State) : State :=
  let s1 := emit .rstDeassert (driveSrrst .deasserted s)
  let s2 := emit .rstAssert (driveSrrst .asserted s1)
  let s3 := emit .latchIdle (driveLatch .asserted s2)
  emit .oeEnable (driveOe .enabled s3)

/-- `n` free bytes, numbered from `i`. -/
def freeBytes (i n : Nat) : List Byte := (List.range n).map fun j => Config.freeByte (i + j)

/-- SHIFT, OUT and PAY take any values: what RESET leaves open (93_implementation_defined.md U6, U22; log entry
3). -/
def openValues (s : State) : State :=
  let n := s.cfg.n
  { s with shift := freeBytes s.freeIdx n, out := freeBytes (s.freeIdx + n) n,
           pay := freeBytes (s.freeIdx + 2 * n) n, freeIdx := s.freeIdx + 3 * n }

/-- The payload buffer is filled: steps 1 and 2 of TICK, from the row word of the active row
(41_frame_engine.md R73, R74). -/
def loadPayload (s : State) : State :=
  { s with pay := payload s.cfg s.row ((s.mem.read .cur s.row).getD 0) }

/-- The swap: at a wraparound with UPD set, the adoption and the clearing of the flag as one action
(41_frame_engine.md R76, 20_memory.md R44). -/
def swap (s : State) : State := if s.upd then clearUpd { s with mem := s.mem.adopt } else s

/-- Steps 4 and 5 of TICK: the next row, and at the wraparound row 0 and the swap (41_frame_engine.md R75, R76). -/
def advance (s : State) : State :=
  if s.row + 1 = s.cfg.rows then swap { s with row := 0 } else { s with row := s.row + 1 }

/-- Writes one row of PEND (42_producer_ops.md R85). -/
def writeRow (i : Nat) (v : Word) (s : State) : State := { s with mem := s.mem.write .pend i v }

/-- Writes every row of PEND at once (42_producer_ops.md R81). -/
def writeFrame (f : Frame) (s : State) : State := { s with mem := s.mem.writePend f }

/-- Shifts every row of PEND at once by `f`; an over-wide shift under SHIFT_OVERWIDE `any` gives every row a free
word instead (42_producer_ops.md R82, R83; 93_implementation_defined.md U3). -/
def shiftFrame (k : BitVec 8) (f : Word → Word) (s : State) : State :=
  { s with mem := s.mem.writePend (s.mem.pend.mapIdx fun i w => shiftedRow s.cfg k f (s.freeIdx + i) w),
           freeIdx := s.freeIdx + freeUsed s.cfg k s.mem.pend.length }

/-- Shifts one row of PEND by `f`: the reference-mode micro-step of SHL and SHR (70_reset_and_hazards.md R132). -/
def shiftRow (i : Nat) (k : BitVec 8) (f : Word → Word) (s : State) : State :=
  { s with mem := s.mem.write .pend i (shiftedRow s.cfg k f s.freeIdx ((s.mem.read .pend i).getD 0)),
           freeIdx := s.freeIdx + freeUsed s.cfg k 1 }

/-- One row micro-step takes place (70_reset_and_hazards.md R132). -/
def rowStep (s : State) : RowStep → State
  | .write i v => writeRow i v s
  | .shl i k => shiftRow i k (shlWord s.cfg k) s
  | .shr i k => shiftRow i k (shrWord k) s

/-- The flag write of a host operation in progress, and its end: it comes after every row (R132). -/
def endForeground (s : State) : State :=
  let s1 := if s.fg.flag then setUpd s else s
  { s1 with fg := .idle }

/-- The host operation in progress runs to its end with no tick between (70_reset_and_hazards.md R132): host
operations take effect in the order the host issues them (20_memory.md R41). Changes nothing in guarded mode. -/
def settle (s : State) : State := endForeground (s.fg.rows.foldl rowStep s)

/-- One micro-step of the host operation in progress: a row that is left, of the environment's choice
(93_implementation_defined.md U19), or the flag write when no row is left; nothing when no operation is in
progress (70_reset_and_hazards.md R132). -/
def hostStep (choice : Nat) (s : State) : State :=
  match s.fg.rows[choice % s.fg.rows.length]? with
  | some st => { rowStep s st with fg := { s.fg with rows := s.fg.rows.eraseIdx (choice % s.fg.rows.length) } }
  | none => endForeground s

/-- A frame-wide host operation: all at once in guarded mode (20_memory.md R38), and in reference mode begun, its
micro-steps still to come (70_reset_and_hazards.md R132). -/
def frameWide (whole : State → State) (fg : Foreground) (s : State) : State :=
  if s.cfg.submitAtomic then whole s else { s with fg := fg }

/-- An event other than RESET takes place only in a legal instance, after RESET, and in a well-typed state; else it
is refused by name (60_exceptions.md R106, 93_implementation_defined.md U12, U16, U25; log entry 11). -/
def whenRunning (s : State) (k : State → Result) : Result :=
  if !s.cfg.legal then .refused .illegalConfiguration
  else if !s.begun then .refused .beforeReset
  else if !s.typed then .refused .illegalStartState
  else k s

/-- RESET takes place only in a legal instance and as the first event of a run (70_reset_and_hazards.md R124). -/
def whenFirst (s : State) (k : State → Result) : Result :=
  if !s.cfg.legal then .refused .illegalConfiguration
  else if s.begun then .refused .secondReset
  else k s

/-- A host operation whose operands pass their check; it begins when the one before it has ended
(20_memory.md R41). -/
def hostOp (check : Option Refusal) (s : State) (k : State → State) : Result :=
  whenRunning s fun s =>
    match check with
    | some r => .refused r
    | none => .next (k (settle s))

end Sys2Proof.Machine
end

