-- ==== Sys2Proof/Machine/Producer.lean ====
section
/-!
DEFINITION. The Frame Producer Interface: SUBMIT, SHL, SHR, PUBLISH, WRROW (spec 42_producer_ops.md R81 to R85),
atomic in guarded mode and begun as micro-steps in reference mode (70_reset_and_hazards.md R132).
-/

namespace Sys2Proof.Machine

/-- The micro-steps of SUBMIT: every row of the bitmap, then the flag (70_reset_and_hazards.md R132). -/
def submitSteps (b : Frame) : Foreground := { rows := b.mapIdx RowStep.write, flag := true }

/-- The micro-steps of a shift: every row, and no flag write (70_reset_and_hazards.md R132). -/
def shiftSteps (rows : Nat) (st : Nat → RowStep) : Foreground := { rows := (List.range rows).map st, flag := false }

/-- SUBMIT B: every row of PEND, then the flag (42_producer_ops.md R81). -/
def execSubmit (b : Frame) (s : State) : Result :=
  hostOp (checkBitmap s.cfg b) s (frameWide (fun s => setUpd (writeFrame b s)) (submitSteps b))

/-- SHL k: every row of PEND shifted left, truncated to WIDTH (42_producer_ops.md R82). -/
def execShl (k : BitVec 8) (s : State) : Result :=
  hostOp none s (frameWide (shiftFrame k (shlWord s.cfg k)) (shiftSteps s.cfg.rows (RowStep.shl · k)))

/-- SHR k: every row of PEND shifted right, zeros in (42_producer_ops.md R83). -/
def execShr (k : BitVec 8) (s : State) : Result :=
  hostOp none s (frameWide (shiftFrame k (shrWord k)) (shiftSteps s.cfg.rows (RowStep.shr · k)))

/-- PUBLISH: the flag alone (42_producer_ops.md R84). -/
def execPublish (s : State) : Result := hostOp none s setUpd

/-- WRROW r, v: one row of PEND (42_producer_ops.md R85). -/
def execWrrow (r : BitVec 8) (v : Word) (s : State) : Result :=
  hostOp (checkRow s.cfg r v) s (writeRow r.toNat v)

end Sys2Proof.Machine
end

