-- ==== Sys2Proof/Machine/Refresh.lean ====
section
/-!
DEFINITION. TICK, the Frame Engine's refresh tick (spec 41_frame_engine.md R73).
-/

namespace Sys2Proof.Machine

/-- Steps 1 to 3 of TICK: the payload of the active row, sent to the cascade (41_frame_engine.md R73, R74). -/
def display (s : State) : State :=
  let s1 := loadPayload s
  cascadeSend s1.pay s1

/-- TICK: display the active row, then advance, with the swap at the wraparound (41_frame_engine.md R73). -/
def execTick (s : State) : Result := whenRunning s fun s => .next (advance (display s))

end Sys2Proof.Machine
end

