-- ==== Sys2Proof/Machine/Reset.lean ====
section
/-!
DEFINITION. RESET (spec 70_reset_and_hazards.md R123).
-/

namespace Sys2Proof.Machine

/-- The assignments of RESET before CascadeInit (70_reset_and_hazards.md R123). The frames take CUR_RESET and
PEND_RESET, zero in the normative instance (10_state.md R28). -/
def clearState (s : State) : State :=
  { s with begun := true, mem := { cur := s.cfg.curReset, pend := s.cfg.pendReset }, row := 0, upd := false,
           cmdq := [], trace := [], fg := .idle }

/-- RESET, legal only as the first event of a run (70_reset_and_hazards.md R123, R124). -/
def execReset (s : State) : Result :=
  whenFirst s fun s => .next (openValues (cascadeInit (clearState s)))

end Sys2Proof.Machine
end

