-- ==== Sys2Proof/Machine/Dispatch.lean ====
section
/-!
DEFINITION. The meaning of every operation, one arm each.
-/

namespace Sys2Proof.Machine

def exec (i : Instr) (s : State) : Host.Outcome State Fault Refusal :=
  match i with
  | .reset => Sys2Proof.Machine.execReset s
  | .tick => Sys2Proof.Machine.execTick s
  | .submit bitmap => Sys2Proof.Machine.execSubmit bitmap s
  | .shl amount => Sys2Proof.Machine.execShl amount s
  | .shr amount => Sys2Proof.Machine.execShr amount s
  | .publish => Sys2Proof.Machine.execPublish s
  | .wrrow rowf value => Sys2Proof.Machine.execWrrow rowf value s

end Sys2Proof.Machine
end

