-- ==== Sys2Proof/Machine/Port.lean ====
section
/-!
DEFINITION. The events at the block's boundary: the command assembler (spec 30_encoding.md R50), the two pins (R53),
the micro-steps of reference mode (70_reset_and_hazards.md R132), and how a table word is placed before the step.
-/

namespace Sys2Proof.Machine

/-- A word arrives on the command port (30_encoding.md R50): it joins CMDQ; a whole command is checked, CMDQ is
emptied and the operation commits now; an illegal command is refused; else the assembler waits. A host that sends
a word has ended the operation before it (20_memory.md R41; log entry 9). -/
def receiveWord (w : Word) (s : State) : Result :=
  whenRunning s fun s0 =>
    let s1 := settle s0
    match decode s1.cfg (s1.cmdq ++ [w]) with
    | .ok (i, _) => exec i (s1.withCmdq [])
    | .error e =>
      match refusalOf e with
      | some r => .refused r
      | none => .next (s1.withCmdq (s1.cmdq ++ [w]))

/-- The environment lets the host perform a micro-step (70_reset_and_hazards.md R132). -/
def receiveHostStep (choice : Nat) (s : State) : Result := whenRunning s fun s => .next (hostStep choice s)

/-- No event: nothing changes (00_scope.md R9; 93_implementation_defined.md U23), in a legal instance and, after
RESET, a well-typed state (10_state.md R25). -/
def noEvent (s : State) : Result :=
  if !s.cfg.legal then .refused .illegalConfiguration
  else if s.begun && !s.typed then .refused .illegalStartState
  else .next s

/-- One event takes place (00_scope.md R8, 30_encoding.md R50, R53). -/
def receive (e : Input) (s : State) : Result :=
  match e with
  | .rst => exec .reset s
  | .tick => exec .tick s
  | .word w => receiveWord w s
  | .hostStep choice => receiveHostStep choice s

/-- The operation that the next event commits, if it commits one (30_encoding.md R50). -/
def State.commits (s : State) : Option Instr :=
  match s.inputs with
  | .rst :: _ => some .reset
  | .tick :: _ => some .tick
  | .word w :: _ =>
    match decode s.cfg (s.cmdq ++ [w]) with
    | .ok (i, _) => some i
    | .error _ => none
  | .hostStep _ :: _ => none
  | [] => none

/-- Places the last word of a command as the next event, with the words before it already in the assembler, so that
the next step commits the command (log entry 26). -/
def State.withCommand (s : State) (ws : List Word) : State :=
  (s.withCmdq ws.dropLast).withInputs (ws.getLast?.toList.map .word ++ s.inputs)

/-- Places a tick strobe as the next event. -/
def State.withTick (s : State) : State := s.withInputs (.tick :: s.inputs)

end Sys2Proof.Machine
end

