-- ==== Sys2Proof/Machine/Step.lean ====
section
/-!
DEFINITION. One step: the oldest event still to come takes place (spec 00_scope.md R8).
-/

namespace Sys2Proof.Machine

/-- One step takes the oldest event from `inputs`; with none to come, nothing happens (00_scope.md R8, R9). -/
def step (s : State) : Host.Outcome State Fault Refusal :=
  match s.inputs with
  | [] => noEvent s
  | e :: rest => receive e (s.withInputs rest)

/-- The table word placed where the next step finds it: a pin row's pattern `1` as a tick strobe (log entry 15), a
command as its last word to come and the words before it in the assembler (log entry 26). -/
def State.withFetchWord (s : State) (nbits w : Nat) : State :=
  if nbits < 32 then if w = 1 then s.withTick else s
  else s.withCommand (tableWords s.cfg w)

end Sys2Proof.Machine
end

