-- ==== Sys2Proof/Machine/Assembler.lean ====
section
/-!
DEFINITION. The textual form of test programs (spec 30_encoding.md R59) and its pseudo-operations (R60): one
operation a line, mnemonic first, operands separated by commas, numbers in any base of 00_scope.md section 6.
-/

namespace Sys2Proof.Machine

/-- A line of a program: an operation, or one of the two pseudo-operations (30_encoding.md R59, R60). -/
inductive Line where
  | op (i : Instr)
  | ticks (n : Nat)
  | frame
deriving DecidableEq, Repr

/-- The operations a line stands for: `TICKS n` is n TICKs and `FRAME` is `TICKS ROWS` (30_encoding.md R60). -/
def Line.expand (c : Config) : Line → List Instr
  | .op i => [i]
  | .ticks n => List.replicate n .tick
  | .frame => List.replicate c.rows .tick

/-- The events of a program, in the order of its lines (30_encoding.md R59), as in the atomic runs of 00_scope.md
R8. DESIGN CHOICE (log entry 24): no line performs a micro-step of reference mode, so there a TICK line after a
SUBMIT, SHL or SHR line falls before all its micro-steps until the next host line; the other interleavings have
event lists, but no program text. -/
def assemble (c : Config) (p : List Line) : List Input := (p.flatMap (Line.expand c)).flatMap Instr.events

/-- The value of a digit: 0 to 9, A to F, a to f. -/
def digitValue (ch : Char) : Option Nat :=
  let n := ch.toNat
  if 48 ≤ n ∧ n ≤ 57 then some (n - 48)
  else if 65 ≤ n ∧ n ≤ 70 then some (n - 55)
  else if 97 ≤ n ∧ n ≤ 102 then some (n - 87)
  else none

/-- The value of digits in a base, most significant first. -/
def digitsValue (base : Nat) (acc : Nat) : List Char → Option Nat
  | [] => some acc
  | ch :: rest =>
    match digitValue ch with
    | some d => if d < base then digitsValue base (acc * base + d) rest else none
    | none => none

/-- A number: `0x` hexadecimal, `0b` binary, otherwise decimal (00_scope.md section 6). -/
def parseNumber : List Char → Option Nat
  | '0' :: 'x' :: d :: ds => digitsValue 16 0 (d :: ds)
  | '0' :: 'b' :: d :: ds => digitsValue 2 0 (d :: ds)
  | d :: ds => digitsValue 10 0 (d :: ds)
  | [] => none

/-- Splits at a character. -/
def splitAtChar (sep : Char) : List Char → List (List Char)
  | [] => [[]]
  | ch :: rest =>
    if ch = sep then [] :: splitAtChar sep rest
    else
      match splitAtChar sep rest with
      | [] => [[ch]]
      | t :: ts => (ch :: t) :: ts

/-- The mnemonic of a line and the text after it: the line is cut at its first space. -/
def splitMnemonic (line : List Char) : List Char × List Char :=
  (line.takeWhile (· ≠ ' '), (line.dropWhile (· ≠ ' ')).filter (· ≠ ' '))

/-- The operands of a line: numbers separated by commas, spaces left out. -/
def parseOperands (text : List Char) : Option (List Nat) :=
  if text.isEmpty then some [] else (splitAtChar ',' text).mapM parseNumber

/-- The line an operation's mnemonic and operands stand for (30_encoding.md R59, R60). A number that does not fit
its operand's field is no line. -/
def buildLine (mnemonic : String) (ops : List Nat) : Option Line :=
  match mnemonic, ops with
  | "RESET", [] => some (.op .reset)
  | "TICK", [] => some (.op .tick)
  | "SUBMIT", ws => if ws.all (· < 2 ^ 32) then some (.op (.submit (ws.map (BitVec.ofNat 32)))) else none
  | "SHL", [k] => if k < 256 then some (.op (.shl (BitVec.ofNat 8 k))) else none
  | "SHR", [k] => if k < 256 then some (.op (.shr (BitVec.ofNat 8 k))) else none
  | "PUBLISH", [] => some (.op .publish)
  | "WRROW", [r, v] =>
    if r < 256 ∧ v < 2 ^ 32 then some (.op (.wrrow (BitVec.ofNat 8 r) (BitVec.ofNat 32 v))) else none
  | "TICKS", [n] => some (.ticks n)
  | "FRAME", [] => some .frame
  | _, _ => none

/-- One line of program text (30_encoding.md R59, R60; log entry 24). -/
def parseLine (line : String) : Option Line :=
  let parts := splitMnemonic line.toList
  match parseOperands parts.2 with
  | some ops => buildLine (String.ofList parts.1) ops
  | none => none

/-- A program of text lines, in order. -/
def parseProgram (lines : List String) : Option (List Line) := lines.mapM parseLine

end Sys2Proof.Machine
end

