-- ==== Sys2Proof/Safety.lean ====
section
/-!
DEFINITION. The terms in which claims about runs are stated (spec 43_invariants.md): the operations a run executes,
the shape of the output trace, and what the matrix shows.

The block has no fault, no halt and no result (60_exceptions.md R105, 00_scope.md R10): a safe run is one that no
step refuses, so that `run` answers a next state.
-/

namespace Sys2Proof.Machine

/-- `n` steps, stopping at the first fault or refusal: `Host.Core.run` of this machine, with its types written out
(00_scope.md R8). -/
def run : Nat → State → Result
  | 0, s => .next s
  | n + 1, s =>
    match step s with
    | .next t => run n t
    | .fault r => .fault r
    | .refused r => .refused r

/-- The operations executed in `n` steps, in order (00_scope.md R8). -/
def executed : Nat → State → List Instr
  | 0, _ => []
  | n + 1, s =>
    s.commits.toList ++
      match step s with
      | .next t => executed n t
      | .fault _ => []
      | .refused _ => []

/-- How many TICKs a list of operations holds. -/
def tickCount (is : List Instr) : Nat := is.count .tick

/-- The operation publishes: SUBMIT or PUBLISH (42_producer_ops.md R88). -/
def publishes : Instr → Bool
  | .submit _ => true
  | .publish => true
  | .reset => false
  | .tick => false
  | .shl _ => false
  | .shr _ => false
  | .wrrow _ _ => false

/-- The operation can write PEND (10_state.md R14). -/
def writesPend : Instr → Bool
  | .submit _ => true
  | .shl _ => true
  | .shr _ => true
  | .wrrow _ _ => true
  | .reset => true
  | .tick => false
  | .publish => false

/-- A wrapping TICK is one that starts with `ROW = ROWS - 1` (43_invariants.md, Terms). -/
def wrapping (s : State) : Bool := s.row + 1 == s.cfg.rows

/-- The four CascadeInit events (40_cascade_driver.md R67). -/
def initEvents : List Event := [.rstDeassert, .rstAssert, .latchIdle, .oeEnable]

/-- The events of a TICK with this payload (40_cascade_driver.md R65). -/
def sendEvents (p : List Byte) : List Event := .latchDeassert :: p.map .byte ++ [.latchAssert]

/-- The payload of a row of a frame. -/
def framePayload (c : Config) (f : Frame) (r : Nat) : List Byte := payload c r (f.getD r 0)

/-- The events of one refresh cycle that displays a frame: ROWS TICKs from row 0 (41_frame_engine.md R77). -/
def cycleEvents (c : Config) (f : Frame) : List Event :=
  (List.range c.rows).flatMap fun r => sendEvents (framePayload c f r)

/-- The trace is the four CascadeInit events followed by whole blocks of N bytes, however many (43_invariants.md
R99, but for the count). -/
def TraceShape (c : Config) (tr : List Event) : Prop :=
  ∃ ps : List (List Byte), (∀ p ∈ ps, p.length = c.n) ∧ tr = initEvents ++ ps.flatMap sendEvents

/-- The payload position of bank b's row-select byte: b itself, or mirrored among the row-select bytes when
BANK_A_FIRST is false (30_encoding.md R54, 92_eei_decisions.md D9). -/
def bankPosition (c : Config) (b : Nat) : Nat := if c.bankAFirst then b else c.nsel - 1 - b

/-- How many bits of a byte are set. -/
def byteOnes (b : Byte) : Nat := (List.range 8).countP fun i => b.getLsbD i

/-- How many bits of a byte sequence are set (43_invariants.md R91). -/
def setBits (bs : List Byte) : Nat := (bs.map byteOnes).sum

/-- The row lines of a payload or of the pins: the first NSEL bytes (10_state.md R23). -/
def rowLines (c : Config) (p : List Byte) : List Byte := p.take c.nsel

/-- The column lines of a payload or of the pins: the bytes after the row lines (10_state.md R23). -/
def columnLines (c : Config) (p : List Byte) : List Byte := p.drop c.nsel

/-- After the first TICK exactly one row line is set at the pins (43_invariants.md R98). -/
def oneRowLit (s : State) : Prop := s.trace ≠ initEvents → setBits (rowLines s.cfg s.out) = 1

/-- A running block in guarded mode (70_reset_and_hazards.md R132, R133). -/
def guardedRunning (s : State) : Bool := s.running && s.cfg.submitAtomic

/-- A running block with no host operation in progress and none partly received. -/
def quiet (s : State) : Bool := s.running && s.fg == .idle && s.cmdq.isEmpty

end Sys2Proof.Machine
end

