-- ==== Sys2Proof/Certificates/Slice0/Obligations.lean ====
section
/-!
DEFINITION. The statements about the model, for the provers.

Where a premise is `running`, it is the condition under which the spec lets an operation take place: a legal
instance (spec 00_scope.md R6), after RESET (R8), in a well-typed state (10_state.md R25). `guardedRunning` adds the
normative guarded mode (70_reset_and_hazards.md R132, R133).
-/

open Sys2Proof Sys2Proof.Machine

/-! ## The command encoding -/

/-- The decoder reads back every well-formed command from its own words, whatever words follow
(30_encoding.md R47 to R51, R58). -/
def Obligations.DecodeReadsBackEncode : Prop :=
  ∀ (c : Config) (i : Instr) (rest : List Word), i.isCommand = true → WellFormed c i = true →
    decode c (encode i ++ rest) = .ok (i, rest)

/-- What the decoder accepts is a well-formed command and the words are its own: no two word sequences stand for
one command, and no bit is dropped (30_encoding.md R47 to R52). -/
def Obligations.AcceptedWordsAreTheEncoding : Prop :=
  ∀ (c : Config) (ws rest : List Word) (i : Instr), decode c ws = .ok (i, rest) →
    i.isCommand = true ∧ WellFormed c i = true ∧ ws = encode i ++ rest

/-- The opcode map by mask and match, with the header operand and the length of each command (30_encoding.md R49). -/
def Obligations.HeaderMatchesOpcodeMap : Prop :=
  ∀ (h : Word) (c : Config) (k r : BitVec 8),
    (decodeHeader h = some .submit ↔ h &&& 0xFFFFFFFF = 0x01000000) ∧
    (decodeHeader h = some (.shl k) ↔ h &&& 0xFFFFFF00 = 0x02000000 ∧ k = h.extractLsb' 0 8) ∧
    (decodeHeader h = some (.shr k) ↔ h &&& 0xFFFFFF00 = 0x03000000 ∧ k = h.extractLsb' 0 8) ∧
    (decodeHeader h = some .publish ↔ h &&& 0xFFFFFFFF = 0x04000000) ∧
    (decodeHeader h = some (.wrrow r) ↔ h &&& 0xFFFF00FF = 0x05000000 ∧ r = h.extractLsb' 8 8) ∧
    (decodeHeader h = none ↔ ∀ row ∈ opcodeMap, row.selects h = false) ∧
    1 + Header.submit.operandWords c = 1 + c.rows ∧ 1 + (Header.shl k).operandWords c = 1 ∧
    1 + (Header.shr k).operandWords c = 1 ∧ 1 + Header.publish.operandWords c = 1 ∧
    1 + (Header.wrrow r).operandWords c = 2

/-- The words of each operation, as the syntax table gives them (30_encoding.md R59). -/
def Obligations.OperationWordsBySyntaxTable : Prop :=
  Instr.reset.events = [.rst] ∧ Instr.tick.events = [.tick] ∧
  (∀ b : Frame, (Instr.submit b).events = .word 0x01000000 :: b.map .word) ∧
  (∀ k : BitVec 8, (Instr.shl k).events = [.word (0x02000000 + k.setWidth 32)]) ∧
  (∀ k : BitVec 8, (Instr.shr k).events = [.word (0x03000000 + k.setWidth 32)]) ∧
  Instr.publish.events = [.word 0x04000000] ∧
  (∀ (r : BitVec 8) (v : Word), (Instr.wrrow r v).events = [.word (0x05000000 + (r.setWidth 32 <<< 8)), .word v])

/-- A few words written out from the encoding decode to what they stand for (30_encoding.md R47, R49). -/
def Obligations.WrittenWordsDecode : Prop :=
  decode Config.small [0x01000000, 0x000000AA, 0x00000055] = .ok (.submit [0xAA, 0x55], []) ∧
  decode Config.reference [0x020000FF] = .ok (.shl 255, []) ∧
  decode Config.reference [0x03000004] = .ok (.shr 4, []) ∧
  decode Config.reference [0x04000000] = .ok (.publish, []) ∧
  decode Config.reference [0x05000B00, 0xFFFFFFFF] = .ok (.wrrow 11 0xFFFFFFFF, [])

/-- Illegal headers, operand words that are too wide and row numbers out of range are refused by name, a header as
it arrives and the operands when their command is whole (30_encoding.md R52, R50). -/
def Obligations.IllegalCommandsRefused : Prop :=
  ∀ (s : State) (w : Word) (rest : List Input), s.running = true → s.inputs = .word w :: rest →
    let f := headerFields w
    (s.cmdq = [] →
      (f.opc = 0 ∨ 6 ≤ f.opc.toNat ∨ f.rsv ≠ 0 ∨ (f.rowf ≠ 0 ∧ f.opc ≠ 5) ∨ (f.amt ≠ 0 ∧ f.opc ≠ 2 ∧ f.opc ≠ 3)) →
      step s = .refused .illegalCommand) ∧
    (∀ (h : Word) (ops : List Word) (hd : Header), s.cmdq = h :: ops → decodeHeader h = some hd →
      ops.length + 1 = hd.operandWords s.cfg →
      ((∃ v ∈ ops ++ [w], 2 ^ s.cfg.width ≤ v.toNat) → step s = .refused .operandTooWide) ∧
      ((∀ v ∈ ops ++ [w], v.toNat < 2 ^ s.cfg.width) → ∀ r : BitVec 8, hd = .wrrow r → s.cfg.rows ≤ r.toNat →
        step s = .refused .rowOutOfRange))

/-! ## The command assembler and the step -/

/-- A word that does not complete its command joins CMDQ, and nothing else changes (30_encoding.md R50). -/
def Obligations.PartialCommandHasNoEffect : Prop :=
  ∀ (s : State) (w : Word) (rest : List Input), s.running = true → s.fg = .idle → s.inputs = .word w :: rest →
    decode s.cfg (s.cmdq ++ [w]) = .error .incomplete →
    step s = .next ((s.withInputs rest).withCmdq (s.cmdq ++ [w]))

/-- A whole command, delivered word by word, is the operation taking place once, at its last word
(30_encoding.md R50). -/
def Obligations.CommandCommitsAtLastWord : Prop :=
  ∀ (s : State) (i : Instr) (rest : List Input), quiet s = true → i.isCommand = true →
    WellFormed s.cfg i = true → s.inputs = i.events ++ rest →
    run i.events.length s = exec i (s.withInputs rest)

/-- A TICK that falls after a word which does not complete its command sees the state as if that word had not come:
the two events can change places (30_encoding.md R50). -/
def Obligations.TickBetweenWordsSeesNoCommand : Prop :=
  ∀ (s : State) (w : Word) (rest : List Input), s.running = true → s.fg = .idle →
    decode s.cfg (s.cmdq ++ [w]) = .error .incomplete →
    run 2 (s.withInputs (.word w :: .tick :: rest)) = run 2 (s.withInputs (.tick :: .word w :: rest))

/-- A step on a word that completes a command is that operation, in the state whose assembler is empty and whose
host operation in progress, if any, has ended (30_encoding.md R50). -/
def Obligations.StepRunsDecodedCommand : Prop :=
  ∀ (s : State) (w : Word) (rest : List Input) (i : Instr) (more : List Word), s.running = true →
    s.inputs = .word w :: rest → decode s.cfg (s.cmdq ++ [w]) = .ok (i, more) →
    step s = exec i ((settle (s.withInputs rest)).withCmdq [])

/-- A step on a pin event is that operation; with no event nothing changes (30_encoding.md R53, 00_scope.md R9;
the list of events is the model's, log entry 1). -/
def Obligations.StepRunsPinEvents : Prop :=
  ∀ (s : State) (rest : List Input),
    (s.inputs = .rst :: rest → step s = exec .reset (s.withInputs rest)) ∧
    (s.inputs = .tick :: rest → step s = exec .tick (s.withInputs rest)) ∧
    (s.running = true → s.inputs = [] → step s = .next s)

/-! ## TICK -/

/-- TICK whole: the payload of the active row is sent, the row advances, and at the wraparound with UPD set the
pending frame is adopted; nothing else changes (41_frame_engine.md R73). The byte of bank b stands at position b, or
at the mirrored position when BANK_A_FIRST is false (92_eei_decisions.md D9). -/
def Obligations.TickNextState : Prop :=
  ∀ s : State, s.running = true →
    ∃ (w : Word) (p : List Byte), s.mem.cur[s.row]? = some w ∧ p.length = s.cfg.nsel + s.cfg.npix ∧
      (∀ j < s.cfg.npix, p[s.cfg.nsel + j]? = some (w.extractLsb' (s.cfg.width - 8 - 8 * j) 8)) ∧
      (∀ b < s.cfg.nsel,
        p[bankPosition s.cfg b]? = some (if b = s.row / 8 then BitVec.ofNat 8 (2 ^ (s.row % 8)) else 0)) ∧
      exec .tick s = .next
        { s with
          pay := p, shift := p, out := p, latch := .asserted, trace := s.trace ++ sendEvents p,
          row := if s.row + 1 = s.cfg.rows then 0 else s.row + 1,
          mem := if s.row + 1 = s.cfg.rows ∧ s.upd = true then { cur := s.mem.pend, pend := s.mem.pend } else s.mem,
          upd := if s.row + 1 = s.cfg.rows then false else s.upd }

/-- Every TICK selects exactly the active row: one bit set in the row-select bytes, at the bank and offset of the
row (43_invariants.md R91), in either bank order. -/
def Obligations.TickSelectsOneRow : Prop :=
  ∀ s : State, s.running = true →
    ∃ (t : State) (p : List Byte), exec .tick s = .next t ∧ t.trace = s.trace ++ sendEvents p ∧
      p[bankPosition s.cfg (s.row / 8)]? = some (onehot8 (s.row % 8)) ∧
      (∀ b < s.cfg.nsel, b ≠ s.row / 8 → p[bankPosition s.cfg b]? = some 0) ∧
      setBits (rowLines s.cfg p) = 1

/-- Row line s of a payload is set exactly when s is the active row (30_encoding.md R57, which the spec derives from
R55); in either bank order a payload has exactly one row line set. -/
def Obligations.RowLineSetExactlyForItsRow : Prop :=
  ∀ (c : Config) (r : Nat) (w : Word), c.legal = true → r < c.rows →
    (∀ b < c.nsel, ∀ i < 8,
      ((payload c r w)[bankPosition c b]?.map fun x => x.getLsbD i) = some (decide (8 * b + i = r))) ∧
    setBits (rowLines c (payload c r w)) = 1

/-- Bit i of pixel byte j is column WIDTH - 8 - 8j + i of the row word, and the byte stands at position NSEL + j
(20_memory.md R34, 30_encoding.md R56). -/
def Obligations.PixelBytesMostSignificantFirst : Prop :=
  ∀ (c : Config) (r : Nat) (w : Word), c.legal = true →
    ∀ j < c.npix, ∃ b : Byte, (payload c r w)[c.nsel + j]? = some b ∧
      b = w.extractLsb' (c.width - 8 - 8 * j) 8 ∧ ∀ i < 8, b.getLsbD i = w.getLsbD (c.width - 8 - 8 * j + i)

/-- The row index is stepped by TICK modulo ROWS and by nothing else, neither an operation nor any other event
(41_frame_engine.md R75). -/
def Obligations.RowStepsByTickOnly : Prop :=
  ∀ s : State, s.running = true →
    (∃ t, exec .tick s = .next t ∧ t.row = (s.row + 1) % s.cfg.rows) ∧
    (∀ (i : Instr) (t : State), i ≠ .tick → exec i s = .next t → t.row = s.row) ∧
    ∀ t : State, step s = .next t → (∀ rest, s.inputs ≠ .tick :: rest) → t.row = s.row

/-- The swap: at a wraparound with UPD set, CUR takes PEND and UPD is cleared; in every other TICK both stay; PEND
stays in every TICK; and no other operation changes CUR, so that the swap is the only point at which the displayed
bitmap changes (41_frame_engine.md R76). -/
def Obligations.SwapOnlyAtWraparoundWithFlag : Prop :=
  ∀ s : State, s.running = true →
    ∃ t, exec .tick s = .next t ∧ t.mem.pend = s.mem.pend ∧
      (s.row + 1 = s.cfg.rows ∧ s.upd = true → t.mem.cur = s.mem.pend ∧ t.upd = false) ∧
      (¬(s.row + 1 = s.cfg.rows ∧ s.upd = true) → t.mem.cur = s.mem.cur ∧ t.upd = s.upd) ∧
      ∀ (i : Instr) (u : State), i ≠ .tick → exec i s = .next u → u.mem.cur = s.mem.cur

/-- The displayed frame changes in a step only by a wrapping TICK that finds UPD set, and then to PEND
(20_memory.md R45, 41_frame_engine.md R76, 43_invariants.md R103). -/
def Obligations.DisplayedFrameChangesOnlyAtAdoption : Prop :=
  ∀ s t : State, s.running = true → step s = .next t → t.mem.cur ≠ s.mem.cur →
    (∃ rest, s.inputs = .tick :: rest) ∧ wrapping s = true ∧ s.upd = true ∧ t.mem.cur = s.mem.pend

/-! ## The host operations -/

/-- SUBMIT: PEND takes the bitmap and UPD is set, at once; nothing else changes (42_producer_ops.md R81). -/
def Obligations.SubmitNextState : Prop :=
  ∀ (s : State) (b : Frame), guardedRunning s = true → s.cfg.frameOk b = true →
    exec (.submit b) s = .next { s with mem := { cur := s.mem.cur, pend := b }, upd := true }

/-- SHL and SHR: every row of PEND is shifted, by the exact product modulo 2^WIDTH and by the exact quotient;
nothing else changes (43_invariants.md R95). The switch SHIFT_OVERWIDE is at its default. -/
def Obligations.ShiftLaws : Prop :=
  ∀ (s : State) (k : BitVec 8), guardedRunning s = true → s.cfg.overwideZero = true →
    ∃ l r : Frame, l.length = s.cfg.rows ∧ r.length = s.cfg.rows ∧
      (∀ i < s.cfg.rows, ∃ v x y, s.mem.pend[i]? = some v ∧ l[i]? = some x ∧ r[i]? = some y ∧
        x.toNat = (v.toNat * 2 ^ k.toNat) % 2 ^ s.cfg.width ∧ y.toNat = v.toNat / 2 ^ k.toNat) ∧
      exec (.shl k) s = .next { s with mem := { cur := s.mem.cur, pend := l } } ∧
      exec (.shr k) s = .next { s with mem := { cur := s.mem.cur, pend := r } }

/-- SHL moves the pixel at column c to column c + k and SHR to column c - k; vacated columns are off
(42_producer_ops.md R82, R83). -/
def Obligations.ShiftsMovePixels : Prop :=
  ∀ (s t u : State) (k : BitVec 8) (i col : Nat), guardedRunning s = true → s.cfg.overwideZero = true →
    exec (.shl k) s = .next t → exec (.shr k) s = .next u → i < s.cfg.rows → col < s.cfg.width →
    (t.mem.pixel .pend i col = (decide (k.toNat ≤ col) && s.mem.pixel .pend i (col - k.toNat))) ∧
    (u.mem.pixel .pend i col = (decide (col + k.toNat < s.cfg.width) && s.mem.pixel .pend i (col + k.toNat)))

/-- SHL a then SHL b is SHL (a + b) when the sum is an amount (42_producer_ops.md R82). -/
def Obligations.LeftShiftsCompose : Prop :=
  ∀ (s t : State) (a b : BitVec 8), guardedRunning s = true → s.cfg.overwideZero = true →
    a.toNat + b.toNat ≤ 255 → exec (.shl a) s = .next t → exec (.shl b) t = exec (.shl (a + b)) s

/-- SHR k does not undo SHL k: together they clear the top k bits of every row (42_producer_ops.md R83). -/
def Obligations.RightAfterLeftClearsTopBits : Prop :=
  ∀ (s t : State) (k : BitVec 8), guardedRunning s = true → s.cfg.overwideZero = true →
    exec (.shl k) s = .next t →
    ∃ u, exec (.shr k) t = .next u ∧
      ∀ i < s.cfg.rows, ∃ v x, s.mem.pend[i]? = some v ∧ u.mem.pend[i]? = some x ∧
        x.toNat = v.toNat % 2 ^ (s.cfg.width - k.toNat)

/-- With SHIFT_OVERWIDE at `any`, a shift by WIDTH or more still completes; every row takes a free value below
2^WIDTH, and nothing else but the counter of free values changes (93_implementation_defined.md U3; the counter is
the model's, log entries 8 and 23). -/
def Obligations.OverwideShiftIsFree : Prop :=
  ∀ (s : State) (k : BitVec 8), guardedRunning s = true → s.cfg.overwideZero = false → s.cfg.width ≤ k.toNat →
    ∃ p : Frame, s.cfg.frameOk p = true ∧
      (∀ i < s.cfg.rows, ∃ x, p[i]? = some x ∧
        x.toNat = (Config.freeWord (s.freeIdx + i)).toNat % 2 ^ s.cfg.width) ∧
      exec (.shl k) s =
        .next { s with mem := { cur := s.mem.cur, pend := p }, freeIdx := s.freeIdx + s.cfg.rows } ∧
      exec (.shr k) s = .next { s with mem := { cur := s.mem.cur, pend := p }, freeIdx := s.freeIdx + s.cfg.rows }

/-- PUBLISH: UPD is set; nothing else changes (42_producer_ops.md R84). -/
def Obligations.PublishNextState : Prop :=
  ∀ s : State, s.running = true → s.fg = .idle → exec .publish s = .next { s with upd := true }

/-- WRROW: row r of PEND takes v, every other row of both buffers and all else stays; a row number at or above ROWS
is refused (42_producer_ops.md R85). A word of more than WIDTH bits is refused as too wide (30_encoding.md R48), and
so even when the row number is out of range too: the operand words are checked before the row number, which is the
order of 30_encoding.md R50 at the command port and for a WRROW term the model's choice (log entry 11). -/
def Obligations.WrrowNextState : Prop :=
  ∀ (s : State) (r : BitVec 8) (v : Word), s.running = true → s.fg = .idle →
    (v.toNat < 2 ^ s.cfg.width → r.toNat < s.cfg.rows →
      ∃ m, exec (.wrrow r v) s = .next { s with mem := m } ∧ m.read .pend r.toNat = some v ∧
        ∀ (sp : Space) (j : Nat), sp = .cur ∨ j ≠ r.toNat → m.read sp j = s.mem.read sp j) ∧
    (v.toNat < 2 ^ s.cfg.width → s.cfg.rows ≤ r.toNat → exec (.wrrow r v) s = .refused .rowOutOfRange) ∧
    (2 ^ s.cfg.width ≤ v.toNat → exec (.wrrow r v) s = .refused .operandTooWide)

/-- A SUBMIT term that is no frame of the instance is refused: by the model's own name where its row count is wrong,
which no word stream can bring about (42_producer_ops.md R87; log entry 12), and as too wide where only a word has
more than WIDTH bits (30_encoding.md R48). -/
def Obligations.BadBitmapRefused : Prop :=
  ∀ (s : State) (b : Frame), s.running = true →
    (b.length ≠ s.cfg.rows → exec (.submit b) s = .refused .partialBitmap) ∧
    (b.length = s.cfg.rows → (∃ v ∈ b, 2 ^ s.cfg.width ≤ v.toNat) → exec (.submit b) s = .refused .operandTooWide)

/-- A host operation begins where the one before it ends: in reference mode the micro-steps left of the earlier one
come first (20_memory.md R41; log entry 9). -/
def Obligations.HostOperationsTakeEffectInOrder : Prop :=
  ∀ (s : State) (i : Instr), i.isCommand = true → s.running = true →
    (settle s).running = true ∧ (settle s).fg = .idle ∧ exec i s = exec i (settle s)

/-- A host operation, in either mode, leaves alone CUR, ROW, the lines, the payload, the cascade, the trace, the
assembler, the parameters and the events to come (43_invariants.md R100, which the spec derives). -/
def Obligations.HostOperationFrame : Prop :=
  ∀ (s t : State) (i : Instr), i.isCommand = true → exec i s = .next t →
    t.mem.cur = s.mem.cur ∧ t.row = s.row ∧ t.latch = s.latch ∧ t.srrst = s.srrst ∧ t.oe = s.oe ∧ t.pay = s.pay ∧
    t.shift = s.shift ∧ t.out = s.out ∧ t.trace = s.trace ∧ t.cmdq = s.cmdq ∧ t.cfg = s.cfg ∧ t.begun = s.begun ∧
    t.inputs = s.inputs

/-- Issuing SUBMIT, PUBLISH, WRROW, SHL 0 or SHR 0 twice is issuing it once (20_memory.md R39, which the spec
derives). -/
def Obligations.PlainWritesAreIdempotent : Prop :=
  ∀ (s t : State) (i : Instr), guardedRunning s = true →
    ((∃ b, i = .submit b) ∨ i = .publish ∨ (∃ r v, i = .wrrow r v) ∨ i = .shl 0 ∨ i = .shr 0) →
    exec i s = .next t → exec i t = .next t

/-- A TICK that is not wrapping and a host operation give the same state in either order (60_exceptions.md R110). -/
def Obligations.TickAndHostOperationCommute : Prop :=
  ∀ (s a b : State) (i : Instr), i.isCommand = true → wrapping s = false → exec i s = .next a →
    exec .tick s = .next b → exec .tick a = exec i b

/-! ## The Cascade Driver and the pins -/

/-- During a CascadeSend the pins keep the old payload until the latch edge, and then show the new one, all bytes
together (40_cascade_driver.md R63). -/
def Obligations.NoIntermediateOutput : Prop :=
  ∀ (s : State) (p : List Byte), p.length = s.shift.length →
    (∀ k ≤ p.length,
      ((p.take k).foldl sendByte (emit .latchDeassert (driveLatch .deasserted s))).out = s.out) ∧
    (cascadeSend p s).out = p

/-- The status outputs are copies of the flag and of the row index, which fits its RW bits (10_state.md R26). -/
def Obligations.StatusOutputsCopyState : Prop :=
  ∀ s : State, s.running = true → (s.updO.toNat = if s.upd then 1 else 0) ∧ s.rowO.toNat = s.row

/-! ## RESET and what may not happen -/

/-- RESET as the first event: both frames blank, row 0, nothing pending, an empty assembler, the lines at rest and
the four CascadeInit events (70_reset_and_hazards.md R123). What SHIFT, OUT and PAY hold is free: only their
lengths are stated. -/
def Obligations.ResetNextState : Prop :=
  ∀ s : State, s.cfg.legal = true → s.begun = false → s.cfg.curReset = List.replicate s.cfg.rows 0 →
    s.cfg.pendReset = List.replicate s.cfg.rows 0 →
    ∃ (sh out pay : List Byte) (j : Nat),
      sh.length = s.cfg.n ∧ out.length = s.cfg.n ∧ pay.length = s.cfg.n ∧
      exec .reset s = .next
        { cfg := s.cfg, begun := true, inputs := s.inputs,
          mem := { cur := List.replicate s.cfg.rows 0, pend := List.replicate s.cfg.rows 0 }, row := 0, upd := false,
          latch := .asserted, srrst := .asserted, oe := .enabled, pay := pay, cmdq := [], shift := sh, out := out,
          trace := [.rstDeassert, .rstAssert, .latchIdle, .oeEnable], fg := .idle, freeIdx := j }

/-- RESET of any legal instance, with any reset frames, begins a run in a well-typed state (10_state.md R25, R28;
93_implementation_defined.md U14). -/
def Obligations.ResetBeginsRunning : Prop :=
  ∀ s : State, s.cfg.legal = true → s.begun = false →
    ∃ t, exec .reset s = .next t ∧ t.running = true ∧ t.mem = { cur := s.cfg.curReset, pend := s.cfg.pendReset } ∧
      t.trace = initEvents

/-- A RESET after the first is refused by name (70_reset_and_hazards.md R124). -/
def Obligations.SecondResetRefused : Prop :=
  ∀ (s : State) (rest : List Input), s.cfg.legal = true → s.begun = true →
    exec .reset s = .refused .secondReset ∧ (s.inputs = .rst :: rest → step s = .refused .secondReset)

/-- Before RESET a tick, a command and a command word are refused; the refusal's name is the model's
(93_implementation_defined.md U16, 70_reset_and_hazards.md R127; log entry 2). -/
def Obligations.EventsBeforeResetRefused : Prop :=
  ∀ s : State, s.cfg.legal = true → s.begun = false →
    (∀ i : Instr, i ≠ .reset → exec i s = .refused .beforeReset) ∧
    (∀ (w : Word) (rest : List Input), s.inputs = .word w :: rest → step s = .refused .beforeReset)

/-- An illegal configuration is refused in every state, whatever the event (00_scope.md R6). -/
def Obligations.IllegalConfigurationRefused : Prop :=
  ∀ s : State, s.cfg.legal = false →
    step s = .refused .illegalConfiguration ∧ ∀ i : Instr, exec i s = .refused .illegalConfiguration

/-- A state that breaks the typing invariant is refused as a start state, whatever the event but a second RESET,
which is refused by its own name (10_state.md R25; log entries 10 and 11). -/
def Obligations.IllTypedStateRefused : Prop :=
  ∀ s : State, s.cfg.legal = true → s.begun = true → s.typed = false →
    (∀ i : Instr, i ≠ .reset → exec i s = .refused .illegalStartState) ∧
    ((∀ rest, s.inputs ≠ .rst :: rest) → step s = .refused .illegalStartState)

/-- The reset values (10_state.md R28), but for the three that the rule leaves unspecified. -/
def Obligations.ResetValues : Prop :=
  State.reset.mem.cur = List.replicate 12 0 ∧ State.reset.mem.pend = List.replicate 12 0 ∧ State.reset.row = 0 ∧
  State.reset.upd = false ∧ State.reset.latch = .asserted ∧ State.reset.srrst = .asserted ∧
  State.reset.oe = .enabled ∧ State.reset.cmdq = [] ∧
  State.reset.trace = [.rstDeassert, .rstAssert, .latchIdle, .oeEnable] ∧
  State.reset.updO = 0 ∧ State.reset.rowO = 0

/-- The reset state of every legal instance is running: the invariant holds at reset (10_state.md R25, R28). -/
def Obligations.ResetStateIsRunning : Prop :=
  State.reset.running = true ∧ ∀ c : Config, c.legal = true → (State.resetOf c).running = true

/-! ## Invariants that every step keeps -/

/-- Every step keeps the block running: the parameters stay, the run stays begun, and the typing invariant holds
again (10_state.md R25, 00_scope.md R6). -/
def Obligations.StepKeepsRunning : Prop :=
  ∀ s t : State, s.running = true → step s = .next t → t.running = true ∧ t.cfg = s.cfg

/-- Every step keeps the shape of the trace: the four CascadeInit events, then whole blocks of N bytes
(43_invariants.md R99, 70_reset_and_hazards.md R126). How many blocks there are, one for each TICK, is
TraceCountsTicks. -/
def Obligations.StepKeepsTraceShape : Prop :=
  ∀ s t : State, s.running = true → TraceShape s.cfg s.trace → step s = .next t → TraceShape t.cfg t.trace

/-- Every step keeps one row lit: after the first TICK exactly one row line of the pins is set
(43_invariants.md R98). -/
def Obligations.StepKeepsOneRowLit : Prop :=
  ∀ s t : State, s.running = true → oneRowLit s → step s = .next t → oneRowLit t

/-- Shape of the trace and one row lit hold at reset (43_invariants.md R98, R99). -/
def Obligations.ResetTraceAndPins : Prop :=
  TraceShape State.reset.cfg State.reset.trace ∧ oneRowLit State.reset

/-! ## Runs -/

/-- The row index counts the TICKs of a run modulo ROWS, whatever else happens (43_invariants.md R92). -/
def Obligations.RowCountsTicks : Prop :=
  ∀ (n : Nat) (s t : State), s.running = true → run n s = .next t →
    t.row = (s.row + tickCount (executed n s)) % s.cfg.rows

/-- The trace grows by N + 2 events for each TICK of a run and by nothing else (43_invariants.md R99). -/
def Obligations.TraceCountsTicks : Prop :=
  ∀ (n : Nat) (s t : State), s.running = true → run n s = .next t →
    t.trace.length = s.trace.length + tickCount (executed n s) * (s.cfg.n + 2)

/-- No tearing of the current frame: from any point of a refresh cycle to the start of its last TICK, CUR stays,
whatever host operations lie between, in guarded and in reference mode (43_invariants.md R94). -/
def Obligations.NoTearingWithinCycle : Prop :=
  ∀ (n : Nat) (s t : State), s.running = true → run n s = .next t →
    s.row + tickCount (executed n s) < s.cfg.rows → t.mem.cur = s.mem.cur

/-- The flag's meaning: until the next wrapping TICK it is set exactly if it was or a SUBMIT or PUBLISH has taken
place (43_invariants.md R101). -/
def Obligations.FlagRecordsPublication : Prop :=
  ∀ (n : Nat) (s t : State), guardedRunning s = true → run n s = .next t →
    s.row + tickCount (executed n s) < s.cfg.rows → t.upd = (s.upd || (executed n s).any publishes)

/-- Edits that are not published stay invisible: with UPD clear and no SUBMIT or PUBLISH, CUR never changes and
nothing is pending (42_producer_ops.md R88, 70_reset_and_hazards.md R134, R137). -/
def Obligations.UnpublishedEditsInvisible : Prop :=
  ∀ (n : Nat) (s t : State), guardedRunning s = true → s.upd = false → run n s = .next t →
    (∀ i ∈ executed n s, publishes i = false) → t.mem.cur = s.mem.cur ∧ t.upd = false

/-- Whole-frame consistency: with SUBMIT the only host operation, the displayed frame is the one at the start or a
whole submitted bitmap (43_invariants.md R103). -/
def Obligations.DisplayedFrameIsWhole : Prop :=
  ∀ (n : Nat) (s t : State), guardedRunning s = true → s.upd = false → run n s = .next t →
    (∀ i ∈ executed n s, i = .tick ∨ ∃ b, i = .submit b) →
    t.mem.cur = s.mem.cur ∨ Instr.submit t.mem.cur ∈ executed n s

/-- A publication is adopted by the next wrapping TICK, which comes after ROWS - ROW TICKs, and that TICK leaves in
CUR what PEND held at its start (43_invariants.md R104). -/
def Obligations.PublicationAdoptedWithinCycle : Prop :=
  ∀ (n : Nat) (s u : State) (rest : List Input), s.running = true → s.upd = true → run n s = .next u →
    s.row + tickCount (executed n s) + 1 = s.cfg.rows → u.inputs = .tick :: rest →
    ∃ t, step u = .next t ∧ t.upd = false ∧ t.row = 0 ∧ t.mem.cur = u.mem.pend ∧ t.mem.pend = u.mem.pend

/-- The last of several submissions before a wraparound is the one shown; an earlier one is never the displayed
frame unless it was so already (43_invariants.md R97). -/
def Obligations.LastSubmissionWins : Prop :=
  ∀ (n : Nat) (s t : State) (before after : List Instr) (b2 : Frame), guardedRunning s = true →
    run n s = .next t → executed n s = before ++ .submit b2 :: after →
    (∀ i ∈ after, writesPend i = false) → s.row + tickCount before < s.cfg.rows →
    s.row + tickCount (executed n s) = s.cfg.rows →
    t.mem.cur = b2 ∧ ∀ (m : Nat) (u : State), m ≤ n → run m s = .next u → u.mem.cur = s.mem.cur ∨ u.mem.cur = b2

/-- With no host operation, every refresh cycle after the first wrapping TICK emits the same events
(43_invariants.md R93). -/
def Obligations.CyclesRepeatWithoutSubmission : Prop :=
  ∀ (m : Nat) (s : State), s.running = true →
    s.inputs = List.replicate (s.cfg.rows - s.row + m * s.cfg.rows) .tick →
    ∃ (t : State) (first : List Event), run (s.cfg.rows - s.row + m * s.cfg.rows) s = .next t ∧
      first.length = (s.cfg.rows - s.row) * (s.cfg.n + 2) ∧
      t.trace = s.trace ++ first ++
        (List.replicate m (cycleEvents s.cfg (if s.upd then s.mem.pend else s.mem.cur))).flatten

/-- The source's first scenario, in the small configuration from any row: a frame is submitted; after the wraparound
the TICKs show row 0, row 1 and, with no new submission, row 0 again (43_invariants.md R96). -/
def Obligations.SourceScenarioPayloads : Prop :=
  ∀ s : State, quiet s = true → s.cfg = Config.small →
    s.inputs = (Instr.submit [0b10101010, 0b01010101]).events ++ List.replicate (2 - s.row + 3) .tick →
    ∃ (t : State) (before : List Event), run (3 + (2 - s.row + 3)) s = .next t ∧
      before.length = s.trace.length + 4 * (2 - s.row) ∧
      t.trace = before ++ sendEvents [0b00000001, 0b10101010] ++ sendEvents [0b00000010, 0b01010101] ++
        sendEvents [0b00000001, 0b10101010]

/-- The first refresh cycle after RESET shows the reset frame, whatever the host does
(70_reset_and_hazards.md R128). -/
def Obligations.FirstCycleShowsResetFrame : Prop :=
  ∀ (c : Config) (ins : List Input) (n : Nat) (t : State), c.legal = true →
    run n ((State.resetOf c).withInputs ins) = .next t →
    tickCount (executed n ((State.resetOf c).withInputs ins)) ≤ c.rows →
    t.trace = initEvents ++
      (List.range (tickCount (executed n ((State.resetOf c).withInputs ins)))).flatMap
        fun r => sendEvents (framePayload c c.curReset r)

/-! ## Reference mode -/

/-- In reference mode a SUBMIT, SHL or SHR begins and changes nothing yet; once its micro-steps have come, in any
order and with no TICK between, the state is the one the guarded operation gives
(70_reset_and_hazards.md R132, 93_implementation_defined.md U19; how the micro-steps are driven is the model's, log
entries 9 and 25). -/
def Obligations.MicroStepsReachGuardedResult : Prop :=
  ∀ (s g : State) (i : Instr) (choices : List Nat), s.running = true → s.cfg.submitAtomic = false →
    s.cfg.overwideZero = true → s.fg = .idle →
    ((∃ b, i = .submit b) ∨ (∃ k, i = .shl k) ∨ (∃ k, i = .shr k)) →
    exec i { s with cfg := { s.cfg with submitAtomic := true } } = .next g → choices.length = s.cfg.rows + 1 →
    ∃ u, exec i s = .next u ∧ u.mem = s.mem ∧ u.upd = s.upd ∧
      choices.foldl (fun x k => hostStep k x) u = { g with cfg := s.cfg }

/-- In reference mode a torn frame can be displayed: a run of SUBMITs and TICKs alone reaches a current frame that
is neither the reset frame nor any submitted bitmap (70_reset_and_hazards.md R131, R132; log entry 9). -/
def Obligations.ReferenceModeCanTear : Prop :=
  ∃ (ins : List Input) (n : Nat) (t : State),
    let s := (State.resetOf { Config.small with submitAtomic := false }).withInputs ins
    run n s = .next t ∧ (∀ i ∈ executed n s, i = .tick ∨ ∃ b, i = .submit b) ∧
      t.mem.cur ≠ s.mem.cur ∧ Instr.submit t.mem.cur ∉ executed n s
end

