-- ==== Sys2Proof/Laws/Operands.lean ====
section
/-!
SUPPORT. The small lemmas of the word and payload computations: values as numbers, lengths, and the row width.
-/

namespace Sys2Proof

/-- A truncated number, read back, is the number modulo 2^width. -/
theorem Word.trunc_toNat (width n : Nat) (h : width ≤ 32) : (Word.trunc width n).toNat = n % 2 ^ width := by
  have h1 : n % 2 ^ width < 2 ^ width := Nat.mod_lt _ (Nat.two_pow_pos width)
  have h2 : 2 ^ width ≤ 2 ^ 32 := Nat.pow_le_pow_right (by decide) h
  simp only [Word.trunc, BitVec.toNat_ofNat]
  exact Nat.mod_eq_of_lt (by omega)

/-- A truncated word is a row word. -/
theorem Word.trunc_fits (width n : Nat) (h : width ≤ 32) : Word.fits width (Word.trunc width n) = true := by
  simp only [Word.fits, decide_eq_true_eq, Word.trunc_toNat width n h]
  exact Nat.mod_lt _ (Nat.two_pow_pos width)

theorem Word.fits_iff (width : Nat) (w : Word) : Word.fits width w = true ↔ w.toNat < 2 ^ width := by
  simp [Word.fits]

/-- Truncating a row word to its width changes nothing. -/
theorem Word.trunc_of_fits {width : Nat} {w : Word} (h : Word.fits width w = true) :
    Word.trunc width w.toNat = w := by
  rw [Word.fits_iff] at h
  simp [Word.trunc, Nat.mod_eq_of_lt h]

theorem Config.frameOk_iff (c : Config) (f : Frame) :
    c.frameOk f = true ↔ f.length = c.rows ∧ ∀ w ∈ f, Word.fits c.width w = true := by
  simp [Config.frameOk]

/-- The bounds that a legal configuration gives (00_scope.md R6). -/
theorem Config.legal_bounds {c : Config} (h : c.legal = true) :
    1 ≤ c.rows ∧ c.rows ≤ 256 ∧ (c.width = 8 ∨ c.width = 16 ∨ c.width = 24 ∨ c.width = 32) ∧
    c.nDevices = c.n ∧ c.frameOk c.curReset = true ∧ c.frameOk c.pendReset = true := by
  simp only [Config.legal, Bool.and_eq_true, decide_eq_true_eq, beq_iff_eq, Bool.or_eq_true] at h
  obtain ⟨⟨⟨⟨⟨h1, h2⟩, h3⟩, h4⟩, h5⟩, h6⟩ := h
  exact ⟨h1, h2, by tauto, h4, h5, h6⟩

theorem Config.legal_width {c : Config} (h : c.legal = true) : c.width ≤ 32 := by
  obtain ⟨-, -, hw, -⟩ := Config.legal_bounds h
  omega

theorem Config.legal_rows_pos {c : Config} (h : c.legal = true) : 0 < c.rows :=
  (Config.legal_bounds h).1

namespace Machine

@[simp] theorem rowSelectBytes_length (c : Config) (r : Nat) : (rowSelectBytes c r).length = c.nsel := by
  unfold rowSelectBytes
  split <;> simp

@[simp] theorem payload_length (c : Config) (r : Nat) (w : Word) : (payload c r w).length = c.n := by
  simp [payload, Config.n]

/-- SHL of a row word is the exact product, truncated (42_producer_ops.md R82). -/
theorem shlWord_toNat {c : Config} (h : c.legal = true) (k : BitVec 8) (w : Word) :
    (shlWord c k w).toNat = (w.toNat * 2 ^ k.toNat) % 2 ^ c.width := by
  rw [shlWord, Word.trunc_toNat _ _ (Config.legal_width h), Nat.shiftLeft_eq]

/-- SHR of a row word is the exact quotient (42_producer_ops.md R83). -/
theorem shrWord_toNat (k : BitVec 8) (w : Word) : (shrWord k w).toNat = w.toNat / 2 ^ k.toNat := by
  rw [shrWord, BitVec.toNat_ofNat, Nat.shiftRight_eq_div_pow]
  exact Nat.mod_eq_of_lt (Nat.lt_of_le_of_lt (Nat.div_le_self _ _) w.isLt)

theorem shlWord_fits {c : Config} (h : c.legal = true) (k : BitVec 8) (w : Word) :
    Word.fits c.width (shlWord c k w) = true := Word.trunc_fits _ _ (Config.legal_width h)

theorem shrWord_fits {width : Nat} (k : BitVec 8) {w : Word} (h : Word.fits width w = true) :
    Word.fits width (shrWord k w) = true := by
  rw [Word.fits_iff] at *
  rw [shrWord_toNat]
  exact Nat.lt_of_le_of_lt (Nat.div_le_self _ _) h

theorem freeRow_fits {c : Config} (h : c.legal = true) (i : Nat) : Word.fits c.width (freeRow c i) = true :=
  Word.trunc_fits _ _ (Config.legal_width h)

/-- The normative model has no free shift result (42_producer_ops.md R82). -/
theorem overwide_of_zero {c : Config} (h : c.overwideZero = true) (k : BitVec 8) : overwide c k = false := by
  simp [overwide, h]

/-- In the normative model a shifted row is the row's function (42_producer_ops.md R82, R83). -/
theorem shiftedRow_of_zero {c : Config} (h : c.overwideZero = true) (k : BitVec 8) (f : Word → Word) (j : Nat)
    (w : Word) : shiftedRow c k f j w = f w := by
  simp [shiftedRow, overwide_of_zero h]

theorem freeUsed_of_zero {c : Config} (h : c.overwideZero = true) (k : BitVec 8) (n : Nat) :
    freeUsed c k n = 0 := by
  simp [freeUsed, overwide_of_zero h]

/-- A shifted row is a row word, whichever value it takes. -/
theorem shiftedRow_fits {c : Config} (h : c.legal = true) (k : BitVec 8) {f : Word → Word} (j : Nat) {w : Word}
    (hf : Word.fits c.width (f w) = true) : Word.fits c.width (shiftedRow c k f j w) = true := by
  unfold shiftedRow
  split
  · exact freeRow_fits h j
  · exact hf

/-- A SUBMIT bitmap passes its check exactly when it is a frame of the instance. -/
theorem checkBitmap_none (c : Config) (b : Frame) : checkBitmap c b = none ↔ c.frameOk b = true := by
  unfold checkBitmap Config.frameOk
  split <;> simp_all

/-- WRROW's operands pass their check exactly when both are in range. -/
theorem checkRow_none (c : Config) (r : BitVec 8) (v : Word) :
    checkRow c r v = none ↔ c.rowOk r = true ∧ Word.fits c.width v = true := by
  unfold checkRow
  split
  · simp_all
  · split <;> simp_all

end Machine

end Sys2Proof
end

