-- ==== Sys2Proof/Laws/State.lean ====
section
/-!
SUPPORT. One lemma for each field of State and each update of it: what the field holds after the update.
-/

namespace Sys2Proof.Machine

variable (s : State)

/-! `setUpd` -/

@[simp] theorem setUpd_cfg : (setUpd s).cfg = s.cfg := rfl
@[simp] theorem setUpd_begun : (setUpd s).begun = s.begun := rfl
@[simp] theorem setUpd_inputs : (setUpd s).inputs = s.inputs := rfl
@[simp] theorem setUpd_mem : (setUpd s).mem = s.mem := rfl
@[simp] theorem setUpd_row : (setUpd s).row = s.row := rfl
@[simp] theorem setUpd_upd : (setUpd s).upd = true := rfl
@[simp] theorem setUpd_latch : (setUpd s).latch = s.latch := rfl
@[simp] theorem setUpd_srrst : (setUpd s).srrst = s.srrst := rfl
@[simp] theorem setUpd_oe : (setUpd s).oe = s.oe := rfl
@[simp] theorem setUpd_pay : (setUpd s).pay = s.pay := rfl
@[simp] theorem setUpd_cmdq : (setUpd s).cmdq = s.cmdq := rfl
@[simp] theorem setUpd_shift : (setUpd s).shift = s.shift := rfl
@[simp] theorem setUpd_out : (setUpd s).out = s.out := rfl
@[simp] theorem setUpd_trace : (setUpd s).trace = s.trace := rfl
@[simp] theorem setUpd_fg : (setUpd s).fg = s.fg := rfl
@[simp] theorem setUpd_freeIdx : (setUpd s).freeIdx = s.freeIdx := rfl

/-! `clearUpd` -/

@[simp] theorem clearUpd_cfg : (clearUpd s).cfg = s.cfg := rfl
@[simp] theorem clearUpd_begun : (clearUpd s).begun = s.begun := rfl
@[simp] theorem clearUpd_inputs : (clearUpd s).inputs = s.inputs := rfl
@[simp] theorem clearUpd_mem : (clearUpd s).mem = s.mem := rfl
@[simp] theorem clearUpd_row : (clearUpd s).row = s.row := rfl
@[simp] theorem clearUpd_upd : (clearUpd s).upd = false := rfl
@[simp] theorem clearUpd_latch : (clearUpd s).latch = s.latch := rfl
@[simp] theorem clearUpd_srrst : (clearUpd s).srrst = s.srrst := rfl
@[simp] theorem clearUpd_oe : (clearUpd s).oe = s.oe := rfl
@[simp] theorem clearUpd_pay : (clearUpd s).pay = s.pay := rfl
@[simp] theorem clearUpd_cmdq : (clearUpd s).cmdq = s.cmdq := rfl
@[simp] theorem clearUpd_shift : (clearUpd s).shift = s.shift := rfl
@[simp] theorem clearUpd_out : (clearUpd s).out = s.out := rfl
@[simp] theorem clearUpd_trace : (clearUpd s).trace = s.trace := rfl
@[simp] theorem clearUpd_fg : (clearUpd s).fg = s.fg := rfl
@[simp] theorem clearUpd_freeIdx : (clearUpd s).freeIdx = s.freeIdx := rfl

/-! `emit` -/

@[simp] theorem emit_cfg (e : Event) : (emit e s).cfg = s.cfg := rfl
@[simp] theorem emit_begun (e : Event) : (emit e s).begun = s.begun := rfl
@[simp] theorem emit_inputs (e : Event) : (emit e s).inputs = s.inputs := rfl
@[simp] theorem emit_mem (e : Event) : (emit e s).mem = s.mem := rfl
@[simp] theorem emit_row (e : Event) : (emit e s).row = s.row := rfl
@[simp] theorem emit_upd (e : Event) : (emit e s).upd = s.upd := rfl
@[simp] theorem emit_latch (e : Event) : (emit e s).latch = s.latch := rfl
@[simp] theorem emit_srrst (e : Event) : (emit e s).srrst = s.srrst := rfl
@[simp] theorem emit_oe (e : Event) : (emit e s).oe = s.oe := rfl
@[simp] theorem emit_pay (e : Event) : (emit e s).pay = s.pay := rfl
@[simp] theorem emit_cmdq (e : Event) : (emit e s).cmdq = s.cmdq := rfl
@[simp] theorem emit_shift (e : Event) : (emit e s).shift = s.shift := rfl
@[simp] theorem emit_out (e : Event) : (emit e s).out = s.out := rfl
@[simp] theorem emit_trace (e : Event) : (emit e s).trace = s.trace ++ [e] := rfl
@[simp] theorem emit_fg (e : Event) : (emit e s).fg = s.fg := rfl
@[simp] theorem emit_freeIdx (e : Event) : (emit e s).freeIdx = s.freeIdx := rfl

/-! `driveLatch` -/

@[simp] theorem driveLatch_cfg (l : Level) : (driveLatch l s).cfg = s.cfg := rfl
@[simp] theorem driveLatch_begun (l : Level) : (driveLatch l s).begun = s.begun := rfl
@[simp] theorem driveLatch_inputs (l : Level) : (driveLatch l s).inputs = s.inputs := rfl
@[simp] theorem driveLatch_mem (l : Level) : (driveLatch l s).mem = s.mem := rfl
@[simp] theorem driveLatch_row (l : Level) : (driveLatch l s).row = s.row := rfl
@[simp] theorem driveLatch_upd (l : Level) : (driveLatch l s).upd = s.upd := rfl
@[simp] theorem driveLatch_latch (l : Level) : (driveLatch l s).latch = l := rfl
@[simp] theorem driveLatch_srrst (l : Level) : (driveLatch l s).srrst = s.srrst := rfl
@[simp] theorem driveLatch_oe (l : Level) : (driveLatch l s).oe = s.oe := rfl
@[simp] theorem driveLatch_pay (l : Level) : (driveLatch l s).pay = s.pay := rfl
@[simp] theorem driveLatch_cmdq (l : Level) : (driveLatch l s).cmdq = s.cmdq := rfl
@[simp] theorem driveLatch_shift (l : Level) : (driveLatch l s).shift = s.shift := rfl
@[simp] theorem driveLatch_out (l : Level) : (driveLatch l s).out = if s.latch = .deasserted ∧ l = .asserted then s.shift else s.out := rfl
@[simp] theorem driveLatch_trace (l : Level) : (driveLatch l s).trace = s.trace := rfl
@[simp] theorem driveLatch_fg (l : Level) : (driveLatch l s).fg = s.fg := rfl
@[simp] theorem driveLatch_freeIdx (l : Level) : (driveLatch l s).freeIdx = s.freeIdx := rfl

/-! `sendByte` -/

@[simp] theorem sendByte_cfg (b : Byte) : (sendByte s b).cfg = s.cfg := rfl
@[simp] theorem sendByte_begun (b : Byte) : (sendByte s b).begun = s.begun := rfl
@[simp] theorem sendByte_inputs (b : Byte) : (sendByte s b).inputs = s.inputs := rfl
@[simp] theorem sendByte_mem (b : Byte) : (sendByte s b).mem = s.mem := rfl
@[simp] theorem sendByte_row (b : Byte) : (sendByte s b).row = s.row := rfl
@[simp] theorem sendByte_upd (b : Byte) : (sendByte s b).upd = s.upd := rfl
@[simp] theorem sendByte_latch (b : Byte) : (sendByte s b).latch = s.latch := rfl
@[simp] theorem sendByte_srrst (b : Byte) : (sendByte s b).srrst = s.srrst := rfl
@[simp] theorem sendByte_oe (b : Byte) : (sendByte s b).oe = s.oe := rfl
@[simp] theorem sendByte_pay (b : Byte) : (sendByte s b).pay = s.pay := rfl
@[simp] theorem sendByte_cmdq (b : Byte) : (sendByte s b).cmdq = s.cmdq := rfl
@[simp] theorem sendByte_shift (b : Byte) : (sendByte s b).shift = s.shift.tail ++ [b] := rfl
@[simp] theorem sendByte_out (b : Byte) : (sendByte s b).out = s.out := rfl
@[simp] theorem sendByte_trace (b : Byte) : (sendByte s b).trace = s.trace ++ [.byte b] := rfl
@[simp] theorem sendByte_fg (b : Byte) : (sendByte s b).fg = s.fg := rfl
@[simp] theorem sendByte_freeIdx (b : Byte) : (sendByte s b).freeIdx = s.freeIdx := rfl

/-! `driveSrrst` -/

@[simp] theorem driveSrrst_cfg (l : Level) : (driveSrrst l s).cfg = s.cfg := rfl
@[simp] theorem driveSrrst_begun (l : Level) : (driveSrrst l s).begun = s.begun := rfl
@[simp] theorem driveSrrst_inputs (l : Level) : (driveSrrst l s).inputs = s.inputs := rfl
@[simp] theorem driveSrrst_mem (l : Level) : (driveSrrst l s).mem = s.mem := rfl
@[simp] theorem driveSrrst_row (l : Level) : (driveSrrst l s).row = s.row := rfl
@[simp] theorem driveSrrst_upd (l : Level) : (driveSrrst l s).upd = s.upd := rfl
@[simp] theorem driveSrrst_latch (l : Level) : (driveSrrst l s).latch = s.latch := rfl
@[simp] theorem driveSrrst_srrst (l : Level) : (driveSrrst l s).srrst = l := rfl
@[simp] theorem driveSrrst_oe (l : Level) : (driveSrrst l s).oe = s.oe := rfl
@[simp] theorem driveSrrst_pay (l : Level) : (driveSrrst l s).pay = s.pay := rfl
@[simp] theorem driveSrrst_cmdq (l : Level) : (driveSrrst l s).cmdq = s.cmdq := rfl
@[simp] theorem driveSrrst_shift (l : Level) : (driveSrrst l s).shift = s.shift := rfl
@[simp] theorem driveSrrst_out (l : Level) : (driveSrrst l s).out = s.out := rfl
@[simp] theorem driveSrrst_trace (l : Level) : (driveSrrst l s).trace = s.trace := rfl
@[simp] theorem driveSrrst_fg (l : Level) : (driveSrrst l s).fg = s.fg := rfl
@[simp] theorem driveSrrst_freeIdx (l : Level) : (driveSrrst l s).freeIdx = s.freeIdx := rfl

/-! `driveOe` -/

@[simp] theorem driveOe_cfg (o : Enable) : (driveOe o s).cfg = s.cfg := rfl
@[simp] theorem driveOe_begun (o : Enable) : (driveOe o s).begun = s.begun := rfl
@[simp] theorem driveOe_inputs (o : Enable) : (driveOe o s).inputs = s.inputs := rfl
@[simp] theorem driveOe_mem (o : Enable) : (driveOe o s).mem = s.mem := rfl
@[simp] theorem driveOe_row (o : Enable) : (driveOe o s).row = s.row := rfl
@[simp] theorem driveOe_upd (o : Enable) : (driveOe o s).upd = s.upd := rfl
@[simp] theorem driveOe_latch (o : Enable) : (driveOe o s).latch = s.latch := rfl
@[simp] theorem driveOe_srrst (o : Enable) : (driveOe o s).srrst = s.srrst := rfl
@[simp] theorem driveOe_oe (o : Enable) : (driveOe o s).oe = o := rfl
@[simp] theorem driveOe_pay (o : Enable) : (driveOe o s).pay = s.pay := rfl
@[simp] theorem driveOe_cmdq (o : Enable) : (driveOe o s).cmdq = s.cmdq := rfl
@[simp] theorem driveOe_shift (o : Enable) : (driveOe o s).shift = s.shift := rfl
@[simp] theorem driveOe_out (o : Enable) : (driveOe o s).out = s.out := rfl
@[simp] theorem driveOe_trace (o : Enable) : (driveOe o s).trace = s.trace := rfl
@[simp] theorem driveOe_fg (o : Enable) : (driveOe o s).fg = s.fg := rfl
@[simp] theorem driveOe_freeIdx (o : Enable) : (driveOe o s).freeIdx = s.freeIdx := rfl

/-! `loadPayload` -/

@[simp] theorem loadPayload_cfg : (loadPayload s).cfg = s.cfg := rfl
@[simp] theorem loadPayload_begun : (loadPayload s).begun = s.begun := rfl
@[simp] theorem loadPayload_inputs : (loadPayload s).inputs = s.inputs := rfl
@[simp] theorem loadPayload_mem : (loadPayload s).mem = s.mem := rfl
@[simp] theorem loadPayload_row : (loadPayload s).row = s.row := rfl
@[simp] theorem loadPayload_upd : (loadPayload s).upd = s.upd := rfl
@[simp] theorem loadPayload_latch : (loadPayload s).latch = s.latch := rfl
@[simp] theorem loadPayload_srrst : (loadPayload s).srrst = s.srrst := rfl
@[simp] theorem loadPayload_oe : (loadPayload s).oe = s.oe := rfl
@[simp] theorem loadPayload_pay : (loadPayload s).pay = payload s.cfg s.row ((s.mem.read .cur s.row).getD 0) := rfl
@[simp] theorem loadPayload_cmdq : (loadPayload s).cmdq = s.cmdq := rfl
@[simp] theorem loadPayload_shift : (loadPayload s).shift = s.shift := rfl
@[simp] theorem loadPayload_out : (loadPayload s).out = s.out := rfl
@[simp] theorem loadPayload_trace : (loadPayload s).trace = s.trace := rfl
@[simp] theorem loadPayload_fg : (loadPayload s).fg = s.fg := rfl
@[simp] theorem loadPayload_freeIdx : (loadPayload s).freeIdx = s.freeIdx := rfl

/-! `writeRow` -/

@[simp] theorem writeRow_cfg (i : Nat) (v : Word) : (writeRow i v s).cfg = s.cfg := rfl
@[simp] theorem writeRow_begun (i : Nat) (v : Word) : (writeRow i v s).begun = s.begun := rfl
@[simp] theorem writeRow_inputs (i : Nat) (v : Word) : (writeRow i v s).inputs = s.inputs := rfl
@[simp] theorem writeRow_mem (i : Nat) (v : Word) : (writeRow i v s).mem = s.mem.write .pend i v := rfl
@[simp] theorem writeRow_row (i : Nat) (v : Word) : (writeRow i v s).row = s.row := rfl
@[simp] theorem writeRow_upd (i : Nat) (v : Word) : (writeRow i v s).upd = s.upd := rfl
@[simp] theorem writeRow_latch (i : Nat) (v : Word) : (writeRow i v s).latch = s.latch := rfl
@[simp] theorem writeRow_srrst (i : Nat) (v : Word) : (writeRow i v s).srrst = s.srrst := rfl
@[simp] theorem writeRow_oe (i : Nat) (v : Word) : (writeRow i v s).oe = s.oe := rfl
@[simp] theorem writeRow_pay (i : Nat) (v : Word) : (writeRow i v s).pay = s.pay := rfl
@[simp] theorem writeRow_cmdq (i : Nat) (v : Word) : (writeRow i v s).cmdq = s.cmdq := rfl
@[simp] theorem writeRow_shift (i : Nat) (v : Word) : (writeRow i v s).shift = s.shift := rfl
@[simp] theorem writeRow_out (i : Nat) (v : Word) : (writeRow i v s).out = s.out := rfl
@[simp] theorem writeRow_trace (i : Nat) (v : Word) : (writeRow i v s).trace = s.trace := rfl
@[simp] theorem writeRow_fg (i : Nat) (v : Word) : (writeRow i v s).fg = s.fg := rfl
@[simp] theorem writeRow_freeIdx (i : Nat) (v : Word) : (writeRow i v s).freeIdx = s.freeIdx := rfl

/-! `writeFrame` -/

@[simp] theorem writeFrame_cfg (f : Frame) : (writeFrame f s).cfg = s.cfg := rfl
@[simp] theorem writeFrame_begun (f : Frame) : (writeFrame f s).begun = s.begun := rfl
@[simp] theorem writeFrame_inputs (f : Frame) : (writeFrame f s).inputs = s.inputs := rfl
@[simp] theorem writeFrame_mem (f : Frame) : (writeFrame f s).mem = s.mem.writePend f := rfl
@[simp] theorem writeFrame_row (f : Frame) : (writeFrame f s).row = s.row := rfl
@[simp] theorem writeFrame_upd (f : Frame) : (writeFrame f s).upd = s.upd := rfl
@[simp] theorem writeFrame_latch (f : Frame) : (writeFrame f s).latch = s.latch := rfl
@[simp] theorem writeFrame_srrst (f : Frame) : (writeFrame f s).srrst = s.srrst := rfl
@[simp] theorem writeFrame_oe (f : Frame) : (writeFrame f s).oe = s.oe := rfl
@[simp] theorem writeFrame_pay (f : Frame) : (writeFrame f s).pay = s.pay := rfl
@[simp] theorem writeFrame_cmdq (f : Frame) : (writeFrame f s).cmdq = s.cmdq := rfl
@[simp] theorem writeFrame_shift (f : Frame) : (writeFrame f s).shift = s.shift := rfl
@[simp] theorem writeFrame_out (f : Frame) : (writeFrame f s).out = s.out := rfl
@[simp] theorem writeFrame_trace (f : Frame) : (writeFrame f s).trace = s.trace := rfl
@[simp] theorem writeFrame_fg (f : Frame) : (writeFrame f s).fg = s.fg := rfl
@[simp] theorem writeFrame_freeIdx (f : Frame) : (writeFrame f s).freeIdx = s.freeIdx := rfl

/-! `clearState` -/

@[simp] theorem clearState_cfg : (clearState s).cfg = s.cfg := rfl
@[simp] theorem clearState_begun : (clearState s).begun = true := rfl
@[simp] theorem clearState_inputs : (clearState s).inputs = s.inputs := rfl
@[simp] theorem clearState_mem : (clearState s).mem = { cur := s.cfg.curReset, pend := s.cfg.pendReset } := rfl
@[simp] theorem clearState_row : (clearState s).row = 0 := rfl
@[simp] theorem clearState_upd : (clearState s).upd = false := rfl
@[simp] theorem clearState_latch : (clearState s).latch = s.latch := rfl
@[simp] theorem clearState_srrst : (clearState s).srrst = s.srrst := rfl
@[simp] theorem clearState_oe : (clearState s).oe = s.oe := rfl
@[simp] theorem clearState_pay : (clearState s).pay = s.pay := rfl
@[simp] theorem clearState_cmdq : (clearState s).cmdq = [] := rfl
@[simp] theorem clearState_shift : (clearState s).shift = s.shift := rfl
@[simp] theorem clearState_out : (clearState s).out = s.out := rfl
@[simp] theorem clearState_trace : (clearState s).trace = [] := rfl
@[simp] theorem clearState_fg : (clearState s).fg = .idle := rfl
@[simp] theorem clearState_freeIdx : (clearState s).freeIdx = s.freeIdx := rfl

/-! `openValues` -/

@[simp] theorem openValues_cfg : (openValues s).cfg = s.cfg := rfl
@[simp] theorem openValues_begun : (openValues s).begun = s.begun := rfl
@[simp] theorem openValues_inputs : (openValues s).inputs = s.inputs := rfl
@[simp] theorem openValues_mem : (openValues s).mem = s.mem := rfl
@[simp] theorem openValues_row : (openValues s).row = s.row := rfl
@[simp] theorem openValues_upd : (openValues s).upd = s.upd := rfl
@[simp] theorem openValues_latch : (openValues s).latch = s.latch := rfl
@[simp] theorem openValues_srrst : (openValues s).srrst = s.srrst := rfl
@[simp] theorem openValues_oe : (openValues s).oe = s.oe := rfl
@[simp] theorem openValues_pay : (openValues s).pay = freeBytes (s.freeIdx + 2 * s.cfg.n) s.cfg.n := rfl
@[simp] theorem openValues_cmdq : (openValues s).cmdq = s.cmdq := rfl
@[simp] theorem openValues_shift : (openValues s).shift = freeBytes s.freeIdx s.cfg.n := rfl
@[simp] theorem openValues_out : (openValues s).out = freeBytes (s.freeIdx + s.cfg.n) s.cfg.n := rfl
@[simp] theorem openValues_trace : (openValues s).trace = s.trace := rfl
@[simp] theorem openValues_fg : (openValues s).fg = s.fg := rfl
@[simp] theorem openValues_freeIdx : (openValues s).freeIdx = s.freeIdx + 3 * s.cfg.n := rfl

/-! `withInputs` -/

@[simp] theorem withInputs_cfg (ins : List Input) : (s.withInputs ins).cfg = s.cfg := rfl
@[simp] theorem withInputs_begun (ins : List Input) : (s.withInputs ins).begun = s.begun := rfl
@[simp] theorem withInputs_inputs (ins : List Input) : (s.withInputs ins).inputs = ins := rfl
@[simp] theorem withInputs_mem (ins : List Input) : (s.withInputs ins).mem = s.mem := rfl
@[simp] theorem withInputs_row (ins : List Input) : (s.withInputs ins).row = s.row := rfl
@[simp] theorem withInputs_upd (ins : List Input) : (s.withInputs ins).upd = s.upd := rfl
@[simp] theorem withInputs_latch (ins : List Input) : (s.withInputs ins).latch = s.latch := rfl
@[simp] theorem withInputs_srrst (ins : List Input) : (s.withInputs ins).srrst = s.srrst := rfl
@[simp] theorem withInputs_oe (ins : List Input) : (s.withInputs ins).oe = s.oe := rfl
@[simp] theorem withInputs_pay (ins : List Input) : (s.withInputs ins).pay = s.pay := rfl
@[simp] theorem withInputs_cmdq (ins : List Input) : (s.withInputs ins).cmdq = s.cmdq := rfl
@[simp] theorem withInputs_shift (ins : List Input) : (s.withInputs ins).shift = s.shift := rfl
@[simp] theorem withInputs_out (ins : List Input) : (s.withInputs ins).out = s.out := rfl
@[simp] theorem withInputs_trace (ins : List Input) : (s.withInputs ins).trace = s.trace := rfl
@[simp] theorem withInputs_fg (ins : List Input) : (s.withInputs ins).fg = s.fg := rfl
@[simp] theorem withInputs_freeIdx (ins : List Input) : (s.withInputs ins).freeIdx = s.freeIdx := rfl
@[simp] theorem withInputs_withInputs (a b : List Input) : (s.withInputs a).withInputs b = s.withInputs b := rfl
@[simp] theorem withInputs_self : s.withInputs s.inputs = s := rfl
@[simp] theorem withInputs_typed (ins : List Input) : (s.withInputs ins).typed = s.typed := rfl
@[simp] theorem withInputs_running (ins : List Input) : (s.withInputs ins).running = s.running := rfl

/-! `withCmdq` -/

@[simp] theorem withCmdq_cfg (ws : List Word) : (s.withCmdq ws).cfg = s.cfg := rfl
@[simp] theorem withCmdq_begun (ws : List Word) : (s.withCmdq ws).begun = s.begun := rfl
@[simp] theorem withCmdq_inputs (ws : List Word) : (s.withCmdq ws).inputs = s.inputs := rfl
@[simp] theorem withCmdq_mem (ws : List Word) : (s.withCmdq ws).mem = s.mem := rfl
@[simp] theorem withCmdq_row (ws : List Word) : (s.withCmdq ws).row = s.row := rfl
@[simp] theorem withCmdq_upd (ws : List Word) : (s.withCmdq ws).upd = s.upd := rfl
@[simp] theorem withCmdq_latch (ws : List Word) : (s.withCmdq ws).latch = s.latch := rfl
@[simp] theorem withCmdq_srrst (ws : List Word) : (s.withCmdq ws).srrst = s.srrst := rfl
@[simp] theorem withCmdq_oe (ws : List Word) : (s.withCmdq ws).oe = s.oe := rfl
@[simp] theorem withCmdq_pay (ws : List Word) : (s.withCmdq ws).pay = s.pay := rfl
@[simp] theorem withCmdq_cmdq (ws : List Word) : (s.withCmdq ws).cmdq = ws := rfl
@[simp] theorem withCmdq_shift (ws : List Word) : (s.withCmdq ws).shift = s.shift := rfl
@[simp] theorem withCmdq_out (ws : List Word) : (s.withCmdq ws).out = s.out := rfl
@[simp] theorem withCmdq_trace (ws : List Word) : (s.withCmdq ws).trace = s.trace := rfl
@[simp] theorem withCmdq_fg (ws : List Word) : (s.withCmdq ws).fg = s.fg := rfl
@[simp] theorem withCmdq_freeIdx (ws : List Word) : (s.withCmdq ws).freeIdx = s.freeIdx := rfl
@[simp] theorem withCmdq_self : s.withCmdq s.cmdq = s := rfl

/-! `withTick` -/

@[simp] theorem withTick_cfg : (s.withTick).cfg = s.cfg := rfl
@[simp] theorem withTick_begun : (s.withTick).begun = s.begun := rfl
@[simp] theorem withTick_inputs : (s.withTick).inputs = .tick :: s.inputs := rfl
@[simp] theorem withTick_mem : (s.withTick).mem = s.mem := rfl
@[simp] theorem withTick_row : (s.withTick).row = s.row := rfl
@[simp] theorem withTick_upd : (s.withTick).upd = s.upd := rfl
@[simp] theorem withTick_latch : (s.withTick).latch = s.latch := rfl
@[simp] theorem withTick_srrst : (s.withTick).srrst = s.srrst := rfl
@[simp] theorem withTick_oe : (s.withTick).oe = s.oe := rfl
@[simp] theorem withTick_pay : (s.withTick).pay = s.pay := rfl
@[simp] theorem withTick_cmdq : (s.withTick).cmdq = s.cmdq := rfl
@[simp] theorem withTick_shift : (s.withTick).shift = s.shift := rfl
@[simp] theorem withTick_out : (s.withTick).out = s.out := rfl
@[simp] theorem withTick_trace : (s.withTick).trace = s.trace := rfl
@[simp] theorem withTick_fg : (s.withTick).fg = s.fg := rfl
@[simp] theorem withTick_freeIdx : (s.withTick).freeIdx = s.freeIdx := rfl

/-! `withCommand` -/

@[simp] theorem withCommand_cfg (ws : List Word) : (s.withCommand ws).cfg = s.cfg := rfl
@[simp] theorem withCommand_begun (ws : List Word) : (s.withCommand ws).begun = s.begun := rfl
@[simp] theorem withCommand_inputs (ws : List Word) : (s.withCommand ws).inputs = ws.getLast?.toList.map .word ++ s.inputs := rfl
@[simp] theorem withCommand_mem (ws : List Word) : (s.withCommand ws).mem = s.mem := rfl
@[simp] theorem withCommand_row (ws : List Word) : (s.withCommand ws).row = s.row := rfl
@[simp] theorem withCommand_upd (ws : List Word) : (s.withCommand ws).upd = s.upd := rfl
@[simp] theorem withCommand_latch (ws : List Word) : (s.withCommand ws).latch = s.latch := rfl
@[simp] theorem withCommand_srrst (ws : List Word) : (s.withCommand ws).srrst = s.srrst := rfl
@[simp] theorem withCommand_oe (ws : List Word) : (s.withCommand ws).oe = s.oe := rfl
@[simp] theorem withCommand_pay (ws : List Word) : (s.withCommand ws).pay = s.pay := rfl
@[simp] theorem withCommand_cmdq (ws : List Word) : (s.withCommand ws).cmdq = ws.dropLast := rfl
@[simp] theorem withCommand_shift (ws : List Word) : (s.withCommand ws).shift = s.shift := rfl
@[simp] theorem withCommand_out (ws : List Word) : (s.withCommand ws).out = s.out := rfl
@[simp] theorem withCommand_trace (ws : List Word) : (s.withCommand ws).trace = s.trace := rfl
@[simp] theorem withCommand_fg (ws : List Word) : (s.withCommand ws).fg = s.fg := rfl
@[simp] theorem withCommand_freeIdx (ws : List Word) : (s.withCommand ws).freeIdx = s.freeIdx := rfl

/-! The state after RESET and the state before it -/

@[simp] theorem resetOf_cfg (c : Config) : (State.resetOf c).cfg = c := rfl
@[simp] theorem resetOf_begun (c : Config) : (State.resetOf c).begun = true := rfl
@[simp] theorem resetOf_inputs (c : Config) : (State.resetOf c).inputs = [] := rfl
@[simp] theorem resetOf_mem (c : Config) : (State.resetOf c).mem = { cur := c.curReset, pend := c.pendReset } := rfl
@[simp] theorem resetOf_row (c : Config) : (State.resetOf c).row = 0 := rfl
@[simp] theorem resetOf_upd (c : Config) : (State.resetOf c).upd = false := rfl
@[simp] theorem resetOf_latch (c : Config) : (State.resetOf c).latch = .asserted := rfl
@[simp] theorem resetOf_srrst (c : Config) : (State.resetOf c).srrst = .asserted := rfl
@[simp] theorem resetOf_oe (c : Config) : (State.resetOf c).oe = .enabled := rfl
@[simp] theorem resetOf_cmdq (c : Config) : (State.resetOf c).cmdq = [] := rfl
@[simp] theorem resetOf_trace (c : Config) : (State.resetOf c).trace = [.rstDeassert, .rstAssert, .latchIdle, .oeEnable] := rfl
@[simp] theorem resetOf_fg (c : Config) : (State.resetOf c).fg = .idle := rfl

end Sys2Proof.Machine
end

