-- ==== Sys2Proof/Laws/Cascade.lean ====
section
/-!
SUPPORT. What the Cascade Driver does, said once (spec 40_cascade_driver.md R63 to R69): the bytes fill the chain, the
pins change at the latch edge only, and the trace grows by one block.
-/

namespace Sys2Proof.Machine

/-- Sending bytes changes the shift stages and the trace, and nothing else (40_cascade_driver.md R64, R68). -/
theorem foldl_sendByte (p : List Byte) (s : State) :
    p.foldl sendByte s =
      { s with shift := (p.foldl sendByte s).shift, trace := s.trace ++ p.map .byte } := by
  induction p generalizing s with
  | nil => simp
  | cons b p ih =>
    rw [List.foldl_cons, ih]
    simp [sendByte]

/-- The shift stages after some bytes: the oldest stages have left and the bytes have entered
(40_cascade_driver.md R68). -/
theorem foldl_sendByte_shift (p : List Byte) (s : State) (h : p.length ≤ s.shift.length) :
    (p.foldl sendByte s).shift = s.shift.drop p.length ++ p := by
  induction p generalizing s with
  | nil => simp
  | cons b p ih =>
    have h1 : p.length + 1 ≤ s.shift.length := h
    rw [List.foldl_cons, ih _ (by simp; omega)]
    obtain ⟨x, xs, hx⟩ : ∃ x xs, s.shift = x :: xs := by
      cases hs : s.shift with
      | nil => simp [hs] at h1
      | cons x xs => exact ⟨x, xs, rfl⟩
    simp only [sendByte_shift, hx, List.tail_cons, List.length_cons, List.drop_succ_cons]
    rw [List.drop_append_of_le_length (by simp [hx] at h1; omega)]
    simp

/-- After as many bytes as there are devices the chain holds exactly them (40_cascade_driver.md R68). -/
theorem foldl_sendByte_full (p : List Byte) (s : State) (h : p.length = s.shift.length) :
    (p.foldl sendByte s).shift = p := by
  rw [foldl_sendByte_shift p s (by omega), h]
  simp

/-- CascadeSend of a whole payload: the chain and the pins hold it, the latch line rests asserted, and the trace has
grown by its block (40_cascade_driver.md R63, R65, R69). -/
theorem cascadeSend_eq (p : List Byte) (s : State) (h : p.length = s.shift.length) :
    cascadeSend p s =
      { s with latch := .asserted, shift := p, out := p,
               trace := s.trace ++ (.latchDeassert :: p.map .byte ++ [.latchAssert]) } := by
  have hs := foldl_sendByte_full p (emit .latchDeassert (driveLatch .deasserted s)) (by simpa using h)
  simp only [cascadeSend]
  rw [foldl_sendByte, hs]
  simp [emit, driveLatch]

/-- CascadeInit: the lines at rest and four events (40_cascade_driver.md R67); the pins are whatever the latch line
made of them, which R69 leaves open. -/
theorem cascadeInit_eq (s : State) :
    cascadeInit s =
      { s with srrst := .asserted, latch := .asserted, oe := .enabled,
               out := if s.latch = .deasserted then s.shift else s.out,
               trace := s.trace ++ [.rstDeassert, .rstAssert, .latchIdle, .oeEnable] } := by
  simp [cascadeInit, emit, driveSrrst, driveLatch, driveOe]

@[simp] theorem freeBytes_length (i n : Nat) : (freeBytes i n).length = n := by simp [freeBytes]

end Sys2Proof.Machine
end

