-- ==== Sys2Proof/Laws/Decode.lean ====
section
/-!
SUPPORT. The small lemmas of the encoding (spec 30_encoding.md): header fields and header words, what a legal header
is, and what the decoder answers.
-/

namespace Sys2Proof

/-- The bits of a header word, field by field (30_encoding.md R47). -/
theorem headerWord_getLsbD (f : HeaderFields) (i : Nat) :
    (headerWord f).getLsbD i =
      if i < 8 then f.amt.getLsbD i else if i < 16 then f.rowf.getLsbD (i - 8)
      else if i < 24 then f.rsv.getLsbD (i - 16) else f.opc.getLsbD (i - 24) := by
  show BitVec.getLsbD (w := 8 + 8 + 8 + 8) (f.opc ++ f.rsv ++ f.rowf ++ f.amt) i = _
  simp only [BitVec.getLsbD_append]
  split
  · rfl
  · by_cases h2 : i < 16
    · rw [if_pos h2, if_pos (by omega)]
    · rw [if_neg h2, if_neg (by omega)]
      by_cases h3 : i < 24
      · rw [if_pos h3, if_pos (by omega), Nat.sub_sub]
      · rw [if_neg h3, if_neg (by omega), Nat.sub_sub, Nat.sub_sub]

/-- The fields of a header word built from fields are those fields (30_encoding.md R47). -/
theorem headerFields_headerWord (f : HeaderFields) : headerFields (headerWord f) = f := by
  obtain ⟨a, b, c, d⟩ := f
  simp only [headerFields, HeaderFields.mk.injEq]
  refine ⟨?_, ?_, ?_, ?_⟩ <;> refine BitVec.eq_of_getLsbD_eq fun i hi => ?_ <;>
    simp only [BitVec.getLsbD_extractLsb', headerWord_getLsbD, hi, decide_true, Bool.true_and]
  · rw [if_neg (by omega), if_neg (by omega), if_neg (by omega), Nat.add_sub_cancel_left]
  · rw [if_neg (by omega), if_neg (by omega), if_pos (by omega), Nat.add_sub_cancel_left]
  · rw [if_neg (by omega), if_pos (by omega), Nat.add_sub_cancel_left]
  · rw [if_pos (by omega), Nat.zero_add]

/-- A header word is made of its fields and nothing else (30_encoding.md R47). -/
theorem headerWord_headerFields (h : Word) : headerWord (headerFields h) = h := by
  refine BitVec.eq_of_getLsbD_eq fun i hi => ?_
  simp only [headerWord_getLsbD, headerFields, BitVec.getLsbD_extractLsb']
  split
  · simp [*]
  · split
    · rw [show 8 + (i - 8) = i by omega]
      simp only [show i - 8 < 8 by omega, decide_true, Bool.true_and]
    · split
      · rw [show 16 + (i - 16) = i by omega]
        simp only [show i - 16 < 8 by omega, decide_true, Bool.true_and]
      · rw [show 24 + (i - 24) = i by omega]
        simp only [show i - 24 < 8 by omega, decide_true, Bool.true_and]

/-- A header word stands for a legal header exactly when its fields are that header's (30_encoding.md R49, R52). -/
theorem decodeHeader_iff (h : Word) (hd : Header) : decodeHeader h = some hd ↔ headerFields h = hd.fields := by
  unfold decodeHeader
  generalize headerFields h = f
  obtain ⟨opc, rsv, rowf, amt⟩ := f
  constructor
  · intro e
    simp only at e
    split at e <;> [cases e; skip]
    split at e
    · split at e <;> [skip; cases e]
      cases e
      simp_all [Header.fields]
    split at e
    · split at e <;> [skip; cases e]
      cases e
      simp_all [Header.fields]
    split at e
    · split at e <;> [skip; cases e]
      cases e
      simp_all [Header.fields]
    split at e
    · split at e <;> [skip; cases e]
      cases e
      simp_all [Header.fields]
    split at e
    · split at e <;> [skip; cases e]
      cases e
      simp_all [Header.fields]
    · cases e
  · intro e
    cases hd <;> simp_all [Header.fields]

/-- The header word of a legal header stands for it (30_encoding.md R49). -/
theorem decodeHeader_headerWord (hd : Header) : decodeHeader (headerWord hd.fields) = some hd :=
  (decodeHeader_iff _ _).mpr (headerFields_headerWord _)

/-- The header word of a legal header is the one word that stands for it (30_encoding.md R49). -/
theorem headerWord_of_decodeHeader {h : Word} {hd : Header} (e : decodeHeader h = some hd) :
    h = headerWord hd.fields := by
  rw [← (decodeHeader_iff h hd).mp e, headerWord_headerFields]

/-- The decoder on a legal header with all its operand words there (30_encoding.md R50). -/
theorem decode_cons {c : Config} {h : Word} {ops : List Word} {hd : Header} :
    decodeHeader h = some hd → hd.operandWords c ≤ ops.length → decode c (h :: ops) =
      if !(ops.take (hd.operandWords c)).all (Word.fits c.width) then .error .operandTooWide
      else
        match hd.build c (ops.take (hd.operandWords c)) with
        | .ok i => .ok (i, ops.drop (hd.operandWords c))
        | .error e => .error e := by
  intro e hlen
  simp only [decode, e, if_neg (Nat.not_lt.mpr hlen)]
  all_goals rfl

/-- A header with its operand words builds no waiting command. -/
theorem build_ne_incomplete (c : Config) (args : List Word) (hd : Header) : hd.build c args ≠ .error .incomplete := by
  cases hd <;> simp only [Header.build] <;> try simp
  split <;> simp

namespace Machine

/-- The decoder waits for more words exactly when there is no word yet, or a legal header with too few operand
words (30_encoding.md R50). -/
theorem decode_incomplete_iff (c : Config) (ws : List Word) :
    decode c ws = .error .incomplete ↔ cmdqOk c ws = true := by
  cases ws with
  | nil => simp [decode, cmdqOk]
  | cons h ops =>
    cases e : decodeHeader h with
    | none => simp [decode, cmdqOk, e]
    | some hd =>
      by_cases hlen : hd.operandWords c ≤ ops.length
      · rw [decode_cons e hlen]
        simp only [cmdqOk, e, decide_eq_true_eq]
        constructor
        · intro hx
          split at hx <;> [cases hx; skip]
          split at hx
          · cases hx
          · next e' he' =>
            cases hx
            exact absurd he' (build_ne_incomplete c _ hd)
        · intro hx
          omega
      · simp [decode, cmdqOk, e, Nat.lt_of_not_le hlen]

end Machine

end Sys2Proof
end

