-- ==== Sys2Proof/Laws/Memory.lean ====
section
/-!
SUPPORT. The laws of the two frame buffers: read after write, and that every memory operation keeps the canonical
form.
-/

namespace Sys2Proof.Machine

theorem Memory.wf_iff (c : Config) (m : Memory) :
    m.wf c = true ↔ c.frameOk m.cur = true ∧ c.frameOk m.pend = true := by
  simp [Memory.wf]

@[simp] theorem Memory.read_cur (m : Memory) (i : Nat) : m.read .cur i = m.cur[i]? := rfl
@[simp] theorem Memory.read_pend (m : Memory) (i : Nat) : m.read .pend i = m.pend[i]? := rfl
@[simp] theorem Memory.write_pend_cur (m : Memory) (i : Nat) (v : Word) : (m.write .pend i v).cur = m.cur := rfl
@[simp] theorem Memory.write_pend_pend (m : Memory) (i : Nat) (v : Word) :
    (m.write .pend i v).pend = m.pend.set i v := rfl
@[simp] theorem Memory.writePend_cur (m : Memory) (f : Frame) : (m.writePend f).cur = m.cur := rfl
@[simp] theorem Memory.writePend_pend (m : Memory) (f : Frame) : (m.writePend f).pend = f := rfl
@[simp] theorem Memory.adopt_cur (m : Memory) : m.adopt.cur = m.pend := rfl
@[simp] theorem Memory.adopt_pend (m : Memory) : m.adopt.pend = m.pend := rfl

/-- Reading a row that was just written gives the word written (20_memory.md R33). -/
theorem Memory.read_write_same (m : Memory) (sp : Space) (i : Nat) (v w : Word) (h : m.read sp i = some w) :
    (m.write sp i v).read sp i = some v := by
  have hi : i < (m.space sp).length := (List.getElem?_eq_some_iff.mp h).1
  cases sp <;> exact List.getElem?_set_self hi

/-- A write leaves every other row as it was (20_memory.md R33). -/
theorem Memory.read_write_other (m : Memory) (sp sp' : Space) (i j : Nat) (v : Word) (h : sp ≠ sp' ∨ i ≠ j) :
    (m.write sp i v).read sp' j = m.read sp' j := by
  cases sp <;> cases sp' <;> simp_all [Memory.write, Memory.read, Memory.space]

theorem frameOk_set {c : Config} {f : Frame} (h : c.frameOk f = true) (i : Nat) {v : Word}
    (hv : Word.fits c.width v = true) : c.frameOk (f.set i v) = true := by
  rw [Config.frameOk_iff] at *
  refine ⟨by simpa using h.1, fun w hw => ?_⟩
  rcases List.mem_or_eq_of_mem_set hw with h1 | rfl
  · exact h.2 _ h1
  · exact hv

theorem frameOk_map {c : Config} {f : Frame} (h : c.frameOk f = true) {g : Word → Word}
    (hg : ∀ w, Word.fits c.width w = true → Word.fits c.width (g w) = true) : c.frameOk (f.map g) = true := by
  rw [Config.frameOk_iff] at *
  refine ⟨by simpa using h.1, fun w hw => ?_⟩
  obtain ⟨v, hv, rfl⟩ := List.mem_map.mp hw
  exact hg v (h.2 v hv)

/-- Writing one row with a row word keeps the canonical form. -/
theorem Memory.write_wf {c : Config} {m : Memory} (h : m.wf c = true) (sp : Space) (i : Nat) {v : Word}
    (hv : Word.fits c.width v = true) : (m.write sp i v).wf c = true := by
  rw [Memory.wf_iff] at *
  cases sp
  · exact ⟨frameOk_set h.1 i hv, h.2⟩
  · exact ⟨h.1, frameOk_set h.2 i hv⟩

/-- Writing a whole frame keeps the canonical form. -/
theorem Memory.writePend_wf {c : Config} {m : Memory} (h : m.wf c = true) {f : Frame} (hf : c.frameOk f = true) :
    (m.writePend f).wf c = true := by
  rw [Memory.wf_iff] at *
  exact ⟨h.1, hf⟩

/-- The adoption keeps the canonical form. -/
theorem Memory.adopt_wf {c : Config} {m : Memory} (h : m.wf c = true) : m.adopt.wf c = true := by
  rw [Memory.wf_iff] at *
  exact ⟨h.2, h.2⟩

/-- The memory after RESET of a legal instance has the canonical form. -/
theorem resetOf_mem_wf {c : Config} (h : c.legal = true) : (State.resetOf c).mem.wf c = true := by
  obtain ⟨-, -, -, -, h1, h2⟩ := Config.legal_bounds h
  exact (Memory.wf_iff _ _).mpr ⟨h1, h2⟩

/-- The reset state's memory has the canonical form. -/
theorem reset_mem_wf : State.reset.mem.wf Config.reference = true := by decide

/-- A row in range of a well-formed buffer is there to read (10_state.md R25). -/
theorem frame_read {c : Config} {f : Frame} (h : c.frameOk f = true) {i : Nat} (hi : i < c.rows) :
    ∃ w, f[i]? = some w ∧ Word.fits c.width w = true := by
  rw [Config.frameOk_iff] at h
  have hi' : i < f.length := by omega
  exact ⟨f[i], List.getElem?_eq_getElem hi', h.2 _ (List.getElem_mem hi')⟩

end Sys2Proof.Machine
end

