-- ==== Sys2Proof/Laws/Ops.lean ====
section
/-!
SUPPORT. What each shared operation can do, said once: the guards, the refresh, the swap, the shifts and the
micro-steps.
-/

namespace Sys2Proof.Machine

/-! ## The typing invariant and the guards -/

/-- The typing invariant, field by field (10_state.md R25). -/
theorem typed_iff (s : State) : s.typed = true ↔
    s.mem.wf s.cfg = true ∧ s.row < s.cfg.rows ∧ s.latch = .asserted ∧ s.srrst = .asserted ∧ s.oe = .enabled ∧
    cmdqOk s.cfg s.cmdq = true ∧ s.pay.length = s.cfg.n ∧ s.shift.length = s.cfg.n ∧ s.out.length = s.cfg.n ∧
    s.fg.ok s.cfg = true := by
  simp only [State.typed, Bool.and_eq_true, decide_eq_true_eq, beq_iff_eq, and_assoc]

theorem running_iff (s : State) :
    s.running = true ↔ s.cfg.legal = true ∧ s.begun = true ∧ s.typed = true := by
  simp only [State.running, Bool.and_eq_true, and_assoc]

/-- The micro-steps in progress, condition by condition (70_reset_and_hazards.md R132). -/
theorem fg_ok_iff (c : Config) (fg : Foreground) : fg.ok c = true ↔
    (∀ st ∈ fg.rows, st.ok c = true) ∧ (fg.rows.map RowStep.row).Nodup ∧
    (c.submitAtomic = true → fg = .idle) := by
  simp only [Foreground.ok, Bool.and_eq_true, List.all_eq_true, decide_eq_true_eq, Bool.or_eq_true,
    Bool.not_eq_true', beq_iff_eq, and_assoc]
  cases c.submitAtomic <;> simp

theorem rowStep_row_lt {c : Config} {st : RowStep} (h : st.ok c = true) : st.row < c.rows := by
  cases st <;> simp_all [RowStep.ok, RowStep.row]

@[simp] theorem idle_ok (c : Config) : Foreground.idle.ok c = true := by
  simp [fg_ok_iff, Foreground.idle]

theorem fg_idle_of_guarded {c : Config} {fg : Foreground} (h : fg.ok c = true) (ha : c.submitAtomic = true) :
    fg = .idle := ((fg_ok_iff c fg).mp h).2.2 ha

/-- A guarded operation in a running block is the operation. -/
theorem whenRunning_of_running {s : State} (h : s.running = true) (k : State → Result) : whenRunning s k = k s := by
  obtain ⟨h1, h2, h3⟩ := (running_iff s).mp h
  simp [whenRunning, h1, h2, h3]

/-- A guarded operation answers a next state only in a running block. -/
theorem whenRunning_next {s t : State} {k : State → Result} (h : whenRunning s k = .next t) :
    s.running = true ∧ k s = .next t := by
  unfold whenRunning at h
  split at h <;> [cases h; skip]
  split at h <;> [cases h; skip]
  split at h <;> [cases h; skip]
  exact ⟨(running_iff s).mpr (by simp_all), h⟩

/-- RESET answers a next state only in a legal instance whose run has not begun (70_reset_and_hazards.md R124). -/
theorem whenFirst_next {s t : State} {k : State → Result} (h : whenFirst s k = .next t) :
    s.cfg.legal = true ∧ s.begun = false ∧ k s = .next t := by
  unfold whenFirst at h
  split at h <;> [cases h; skip]
  split at h <;> [cases h; skip]
  exact ⟨by simp_all, by simp_all, h⟩

theorem whenFirst_of_not_begun {s : State} (h1 : s.cfg.legal = true) (h2 : s.begun = false) (k : State → Result) :
    whenFirst s k = k s := by
  simp [whenFirst, h1, h2]

/-- A host operation answers a next state only in a running block and with operands that pass their check. -/
theorem hostOp_next {check : Option Refusal} {s t : State} {k : State → State} (h : hostOp check s k = .next t) :
    s.running = true ∧ check = none ∧ t = k (settle s) := by
  obtain ⟨h1, h2⟩ := whenRunning_next h
  cases check with
  | some r => cases h2
  | none => exact ⟨h1, rfl, by injection h2 with h2; exact h2.symm⟩

theorem hostOp_of_running {s : State} (h : s.running = true) (k : State → State) :
    hostOp none s k = .next (k (settle s)) := whenRunning_of_running h _

/-! ## The swap and the row sequence -/

/-- The swap: with the flag set CUR takes PEND and the flag is cleared; else nothing (41_frame_engine.md R76). -/
theorem swap_eq (s : State) :
    swap s = { s with mem := if s.upd then s.mem.adopt else s.mem, upd := false } := by
  unfold swap
  split
  · rfl
  · next h =>
    obtain ⟨⟩ := s
    simp_all

/-- Steps 4 and 5 of TICK in one line (41_frame_engine.md R75, R76). -/
theorem advance_eq (s : State) :
    advance s =
      if s.row + 1 = s.cfg.rows then
        { s with row := 0, mem := if s.upd then s.mem.adopt else s.mem, upd := false }
      else { s with row := s.row + 1 } := by
  unfold advance
  split
  · rw [swap_eq]
  · rfl

/-! ## The shifts -/

/-- A shift of the whole frame in the normative model (42_producer_ops.md R82, R83). -/
theorem shiftFrame_of_zero {s : State} (h : s.cfg.overwideZero = true) (k : BitVec 8) (f : Word → Word) :
    shiftFrame k f s = { s with mem := s.mem.writePend (s.mem.pend.map f) } := by
  have e : s.mem.pend.mapIdx (fun _ w => f w) = s.mem.pend.map f := by
    apply List.ext_getElem <;> simp
  simp only [shiftFrame, shiftedRow_of_zero h, freeUsed_of_zero h, e, Nat.add_zero]

/-- A shifted frame is a frame of the instance. -/
theorem shiftFrame_frameOk {s : State} (hl : s.cfg.legal = true) (hm : s.mem.wf s.cfg = true) (k : BitVec 8)
    {f : Word → Word} (hf : ∀ w, Word.fits s.cfg.width w = true → Word.fits s.cfg.width (f w) = true) :
    s.cfg.frameOk (shiftFrame k f s).mem.pend = true := by
  obtain ⟨hlen, hp⟩ := (Config.frameOk_iff _ _).mp ((Memory.wf_iff _ _).mp hm).2
  refine (Config.frameOk_iff _ _).mpr ⟨by simpa [shiftFrame] using hlen, fun w hw => ?_⟩
  obtain ⟨i, hi, rfl⟩ := List.mem_mapIdx.mp hw
  exact shiftedRow_fits hl k _ (hf _ (hp _ (List.getElem_mem hi)))

/-- A shifted row is a row word. -/
theorem shiftRow_fits {s : State} (hl : s.cfg.legal = true) (hm : s.mem.wf s.cfg = true) (i : Nat) (k : BitVec 8)
    {f : Word → Word} (hf : ∀ w, Word.fits s.cfg.width w = true → Word.fits s.cfg.width (f w) = true) (j : Nat) :
    Word.fits s.cfg.width (shiftedRow s.cfg k f j ((s.mem.read .pend i).getD 0)) = true := by
  obtain ⟨-, hp⟩ := (Config.frameOk_iff _ _).mp ((Memory.wf_iff _ _).mp hm).2
  refine shiftedRow_fits hl k j (hf _ ?_)
  rw [Memory.read_pend]
  cases hi : s.mem.pend[i]? with
  | none => simp [Word.fits]
  | some w => exact hp w (List.mem_of_getElem? hi)

/-! ## The micro-steps -/

/-- A row micro-step changes PEND and the free-value counter, and keeps the memory's form
(70_reset_and_hazards.md R132). -/
theorem rowStep_spec {s : State} (hl : s.cfg.legal = true) (hm : s.mem.wf s.cfg = true) (st : RowStep)
    (hst : st.ok s.cfg = true) :
    ∃ v j, rowStep s st = { s with mem := s.mem.write .pend st.row v, freeIdx := j } ∧
      Word.fits s.cfg.width v = true := by
  cases st with
  | write i v => exact ⟨v, s.freeIdx, rfl, by simp_all [RowStep.ok]⟩
  | shl i k => exact ⟨_, _, rfl, shiftRow_fits hl hm i k (fun w _ => shlWord_fits hl k w) _⟩
  | shr i k => exact ⟨_, _, rfl, shiftRow_fits hl hm i k (fun w hw => shrWord_fits k hw) _⟩

/-- Row micro-steps one after another change PEND and the free-value counter, and keep the memory's form. -/
theorem foldl_rowStep_spec (sts : List RowStep) {s : State} (hl : s.cfg.legal = true) (hm : s.mem.wf s.cfg = true)
    (hst : ∀ st ∈ sts, st.ok s.cfg = true) :
    ∃ m j, sts.foldl rowStep s = { s with mem := m, freeIdx := j } ∧ m.wf s.cfg = true ∧ m.cur = s.mem.cur := by
  induction sts generalizing s with
  | nil => exact ⟨s.mem, s.freeIdx, rfl, hm, rfl⟩
  | cons st sts ih =>
    obtain ⟨v, j, h1, hv⟩ := rowStep_spec hl hm st (hst st (by simp))
    obtain ⟨m, j', h2, hm', hc⟩ := ih (s := rowStep s st) (by rw [h1]; exact hl)
      (by rw [h1]; exact Memory.write_wf hm _ _ hv)
      (by rw [h1]; exact fun st' h => hst st' (List.mem_cons_of_mem _ h))
    refine ⟨m, j', ?_, ?_, ?_⟩
    · rw [List.foldl_cons, h2, h1]
    · rw [h1] at hm'; exact hm'
    · rw [hc, h1]; rfl

/-- The end of a host operation: the flag if it is to be set, and no operation in progress. -/
theorem endForeground_eq (s : State) :
    endForeground s = { s with upd := s.upd || s.fg.flag, fg := .idle } := by
  unfold endForeground
  cases s.fg.flag <;> simp [setUpd]

/-- With no operation in progress, settling changes nothing. -/
theorem settle_of_idle {s : State} (h : s.fg = .idle) : settle s = s := by
  obtain ⟨⟩ := s
  simp only at h
  subst h
  simp [settle, endForeground_eq, Foreground.idle]

/-- In guarded mode settling changes nothing (70_reset_and_hazards.md R133). -/
theorem settle_of_guarded {s : State} (h : s.typed = true) (ha : s.cfg.submitAtomic = true) : settle s = s :=
  settle_of_idle (fg_idle_of_guarded ((typed_iff s).mp h).2.2.2.2.2.2.2.2.2 ha)

/-- Settling changes PEND, the flag and the free-value counter, and ends the operation in progress
(70_reset_and_hazards.md R132). -/
theorem settle_spec {s : State} (h : s.running = true) :
    ∃ m j, settle s = { s with mem := m, upd := s.upd || s.fg.flag, fg := .idle, freeIdx := j } ∧
      m.wf s.cfg = true ∧ m.cur = s.mem.cur := by
  obtain ⟨hl, -, ht⟩ := (running_iff s).mp h
  have ht := (typed_iff s).mp ht
  have hfg := (fg_ok_iff _ _).mp ht.2.2.2.2.2.2.2.2.2
  obtain ⟨m, j, h1, hm, hc⟩ := foldl_rowStep_spec s.fg.rows hl ht.1 hfg.1
  exact ⟨m, j, by rw [settle, h1, endForeground_eq], hm, hc⟩

/-- Settling keeps the block running. -/
theorem settle_running {s : State} (h : s.running = true) : (settle s).running = true := by
  obtain ⟨m, j, h1, hm, -⟩ := settle_spec h
  rw [running_iff, typed_iff] at *
  rw [h1]
  exact ⟨h.1, h.2.1, hm, h.2.2.2.1, h.2.2.2.2.1, h.2.2.2.2.2.1, h.2.2.2.2.2.2.1, h.2.2.2.2.2.2.2.1,
    h.2.2.2.2.2.2.2.2.1, h.2.2.2.2.2.2.2.2.2.1, h.2.2.2.2.2.2.2.2.2.2.1, idle_ok _⟩

end Sys2Proof.Machine
end

