-- ==== Sys2Proof/Laws/Exec.lean ====
section
/-!
SUPPORT. What displaying a row and a micro-step of the host can do, said once.
-/

namespace Sys2Proof.Machine

/-- Displaying the active row: PAY, SHIFT and OUT hold its payload and the trace has grown by its block
(41_frame_engine.md R74, 40_cascade_driver.md R65). -/
theorem display_eq {s : State} (h : s.typed = true) :
    display s =
      let p := payload s.cfg s.row ((s.mem.read .cur s.row).getD 0)
      { s with pay := p, shift := p, out := p,
               trace := s.trace ++ (.latchDeassert :: p.map .byte ++ [.latchAssert]) } := by
  obtain ⟨-, -, hl, -, -, -, -, hs, -⟩ := (typed_iff s).mp h
  unfold display
  rw [cascadeSend_eq _ _ (by simp [hs])]
  simp only [loadPayload, ← hl]

/-- The end of a host operation keeps the block running. -/
theorem endForeground_running {s : State} (h : s.running = true) : (endForeground s).running = true := by
  rw [running_iff, typed_iff] at *
  rw [endForeground_eq]
  exact ⟨h.1, h.2.1, h.2.2.1, h.2.2.2.1, h.2.2.2.2.1, h.2.2.2.2.2.1, h.2.2.2.2.2.2.1, h.2.2.2.2.2.2.2.1,
    h.2.2.2.2.2.2.2.2.1, h.2.2.2.2.2.2.2.2.2.1, h.2.2.2.2.2.2.2.2.2.2.1, idle_ok _⟩

/-- A micro-step changes PEND, the flag, the free-value counter and the micro-steps left; it keeps the memory's form
and leaves CUR alone (70_reset_and_hazards.md R132). -/
theorem hostStep_spec {s : State} (h : s.running = true) (choice : Nat) :
    ∃ m u fg j, hostStep choice s = { s with mem := m, upd := u, fg := fg, freeIdx := j } ∧
      m.wf s.cfg = true ∧ m.cur = s.mem.cur ∧ fg.ok s.cfg = true := by
  obtain ⟨hl, -, ht⟩ := (running_iff s).mp h
  have ht := (typed_iff s).mp ht
  have hfg := (fg_ok_iff _ _).mp ht.2.2.2.2.2.2.2.2.2
  unfold hostStep
  split
  · next st hst =>
    have hmem := List.mem_of_getElem? hst
    obtain ⟨v, j, h1, hv⟩ := rowStep_spec hl ht.1 st (hfg.1 st hmem)
    refine ⟨_, s.upd, _, j, by rw [h1], Memory.write_wf ht.1 _ _ hv, rfl, ?_⟩
    have sub := List.eraseIdx_sublist s.fg.rows (choice % s.fg.rows.length)
    refine (fg_ok_iff _ _).mpr ⟨fun x hx => hfg.1 x (sub.mem hx), hfg.2.1.sublist (sub.map _), fun ha => ?_⟩
    rw [hfg.2.2 ha] at hst
    simp [Foreground.idle] at hst
  · exact ⟨s.mem, s.upd || s.fg.flag, .idle, s.freeIdx, endForeground_eq s, ht.1, rfl, idle_ok _⟩

/-- In guarded mode a micro-step event changes nothing: no host operation is ever in progress
(70_reset_and_hazards.md R133). -/
theorem hostStep_of_guarded {s : State} (h : s.typed = true) (ha : s.cfg.submitAtomic = true) (choice : Nat) :
    hostStep choice s = s := by
  have hi := fg_idle_of_guarded ((typed_iff s).mp h).2.2.2.2.2.2.2.2.2 ha
  obtain ⟨⟩ := s
  simp only at hi
  subst hi
  simp [hostStep, endForeground_eq, Foreground.idle]

/-- The micro-steps of SUBMIT are steps of the instance (70_reset_and_hazards.md R132). -/
theorem submitSteps_ok {c : Config} {b : Frame} (hb : c.frameOk b = true) (ha : c.submitAtomic = false) :
    (submitSteps b).ok c = true := by
  obtain ⟨hlen, hfit⟩ := (Config.frameOk_iff c b).mp hb
  refine (fg_ok_iff _ _).mpr ⟨fun st hst => ?_, ?_, by simp [ha]⟩
  · obtain ⟨i, hi, rfl⟩ := List.mem_mapIdx.mp hst
    simp only [RowStep.ok, Bool.and_eq_true, decide_eq_true_eq]
    exact ⟨by omega, hfit _ (List.getElem_mem hi)⟩
  · have : (submitSteps b).rows.map RowStep.row = List.range b.length := by
      apply List.ext_getElem <;> simp [submitSteps, RowStep.row]
    rw [this]
    exact List.nodup_range

/-- The micro-steps of a shift are steps of the instance (70_reset_and_hazards.md R132). -/
theorem shiftSteps_ok {c : Config} (st : Nat → RowStep) (h1 : ∀ i, (st i).row = i)
    (h2 : ∀ i, i < c.rows → (st i).ok c = true) (ha : c.submitAtomic = false) :
    (shiftSteps c.rows st).ok c = true := by
  refine (fg_ok_iff _ _).mpr ⟨fun x hx => ?_, ?_, by simp [ha]⟩
  · obtain ⟨i, hi, rfl⟩ := List.mem_map.mp hx
    exact h2 i (List.mem_range.mp hi)
  · have : (shiftSteps c.rows st).rows.map RowStep.row = List.range c.rows := by
      simp [shiftSteps, List.map_map, Function.comp_def, h1]
    rw [this]
    exact List.nodup_range

end Sys2Proof.Machine
end

