-- ==== Sys2Proof/Laws/PerInstr.lean ====
section
/-!
SUPPORT. Families of facts about the operations as syntax, one lemma for each constructor.
-/

namespace Sys2Proof.Laws

/-- A well-formed operation has as many command-port words as the opcode map says (30_encoding.md R49, R51). -/
def CommandLength.Statement (i : Instr) : Prop :=
  ∀ c : Config, WellFormed c i = true → (encode i).length = i.lengthWords c

theorem CommandLength.reset : CommandLength.Statement .reset := fun _ _ => rfl

theorem CommandLength.tick : CommandLength.Statement .tick := fun _ _ => rfl

theorem CommandLength.submit (bitmap : Frame) : CommandLength.Statement (.submit bitmap) := by
  intro c h
  have hlen := ((Config.frameOk_iff c bitmap).mp h).1
  simp only [encode, Instr.lengthWords, List.length_cons, hlen]
  exact Nat.add_comm _ _

theorem CommandLength.shl (amount : BitVec 8) : CommandLength.Statement (.shl amount) := fun _ _ => rfl

theorem CommandLength.shr (amount : BitVec 8) : CommandLength.Statement (.shr amount) := fun _ _ => rfl

theorem CommandLength.publish : CommandLength.Statement .publish := fun _ _ => rfl

theorem CommandLength.wrrow (rowf : BitVec 8) (value : Word) : CommandLength.Statement (.wrrow rowf value) :=
  fun _ _ => rfl

end Sys2Proof.Laws
end

