-- ==== Sys2Proof/Laws/Run.lean ====
section
/-!
SUPPORT. Runs: one step at a time, and one after another.
-/

namespace Sys2Proof.Machine

@[simp] theorem run_zero (s : State) : run 0 s = .next s := rfl

@[simp] theorem executed_zero (s : State) : executed 0 s = [] := rfl

theorem run_succ_of_next {s t : State} (h : step s = .next t) (n : Nat) : run (n + 1) s = run n t := by
  simp only [run, h]

theorem executed_succ_of_next {s t : State} (h : step s = .next t) (n : Nat) :
    executed (n + 1) s = s.commits.toList ++ executed n t := by
  simp only [executed, h]

/-- A run of `n + 1` steps that answers a next state begins with a step that does. -/
theorem run_succ_next {n : Nat} {s t : State} (h : run (n + 1) s = .next t) :
    ∃ u, step s = .next u ∧ run n u = .next t := by
  simp only [run] at h
  split at h
  · next u hu => exact ⟨u, hu, h⟩
  · cases h
  · cases h

/-- A run cut in two. -/
theorem run_add (m n : Nat) (s : State) :
    run (m + n) s =
      match run m s with
      | .next t => run n t
      | .fault r => .fault r
      | .refused r => .refused r := by
  induction m generalizing s with
  | zero => simp
  | succ m ih =>
    rw [Nat.add_right_comm]
    simp only [run]
    split
    · exact ih _
    · rfl
    · rfl

/-- What every step keeps, every run keeps. -/
theorem run_induction {P : State → Prop} (hstep : ∀ s t, P s → step s = .next t → P t) :
    ∀ n s t, P s → run n s = .next t → P t := by
  intro n
  induction n with
  | zero => intro s t hs h; cases h; exact hs
  | succ n ih =>
    intro s t hs h
    obtain ⟨u, h1, h2⟩ := run_succ_next h
    exact ih u t (hstep s u hs h1) h2

/-- `run` is the host's run of this machine. -/
theorem core_run_eq (n : Nat) (s : State) : Sys2Proof.core.run n s = run n s := by
  induction n generalizing s with
  | zero => rfl
  | succ n ih =>
    have e := Host.Core.run.eq_2 Sys2Proof.core s n
    simp only [run]
    cases hs : step s with
    | next t =>
      rw [show Sys2Proof.core.step s = .next t from hs] at e
      exact e.trans (ih t)
    | fault r =>
      rw [show Sys2Proof.core.step s = .fault r from hs] at e
      exact e
    | refused r =>
      rw [show Sys2Proof.core.step s = .refused r from hs] at e
      exact e

end Sys2Proof.Machine
end

