-- ==== Sys2Proof/Laws/Step.lean ====
section
/-!
SUPPORT. What the host operation in progress and the command port can do, said once, with the events still to come
held apart.
-/

namespace Sys2Proof.Machine

/-- A row micro-step does not look at the events still to come. -/
theorem rowStep_withInputs (s : State) (ins : List Input) (st : RowStep) :
    rowStep (s.withInputs ins) st = (rowStep s st).withInputs ins := by
  cases st <;> rfl

/-- Settling does not look at the events still to come. -/
theorem settle_withInputs (s : State) (ins : List Input) :
    settle (s.withInputs ins) = (settle s).withInputs ins := by
  have key : ∀ (sts : List RowStep) (x : State),
      sts.foldl rowStep (x.withInputs ins) = (sts.foldl rowStep x).withInputs ins := by
    intro sts
    induction sts with
    | nil => intro x; rfl
    | cons st sts ih =>
      intro x
      rw [List.foldl_cons, List.foldl_cons, rowStep_withInputs, ih]
  simp only [settle, withInputs_fg, key, endForeground_eq]
  rfl

/-- Settling leaves alone all but PEND, the flag, the operation in progress and the free-value counter. -/
theorem settle_frame {s : State} (h : s.running = true) :
    (settle s).cfg = s.cfg ∧ (settle s).begun = s.begun ∧ (settle s).inputs = s.inputs ∧
    (settle s).mem.cur = s.mem.cur ∧ (settle s).row = s.row ∧ (settle s).upd = (s.upd || s.fg.flag) ∧
    (settle s).latch = s.latch ∧ (settle s).srrst = s.srrst ∧ (settle s).oe = s.oe ∧ (settle s).pay = s.pay ∧
    (settle s).cmdq = s.cmdq ∧ (settle s).shift = s.shift ∧ (settle s).out = s.out ∧
    (settle s).trace = s.trace ∧ (settle s).fg = .idle := by
  obtain ⟨m, j, h1, -, h2⟩ := settle_spec h
  rw [h1]
  exact ⟨rfl, rfl, rfl, h2, rfl, rfl, rfl, rfl, rfl, rfl, rfl, rfl, rfl, rfl, rfl⟩

/-- What a word does in a running block, by what the decoder answers (30_encoding.md R50). -/
theorem receiveWord_eq {s : State} (w : Word) :
    s.running = true →
    receiveWord w s =
      match decode s.cfg (s.cmdq ++ [w]) with
      | .ok (i, _) => exec i ((settle s).withCmdq [])
      | .error e =>
        match refusalOf e with
        | some r => .refused r
        | none => .next ((settle s).withCmdq (s.cmdq ++ [w])) := by
  intro h
  obtain ⟨h1, -, -, -, -, -, -, -, -, -, h2, -⟩ := settle_frame h
  unfold receiveWord
  rw [whenRunning_of_running h]
  simp only [h1, h2]
  all_goals rfl

theorem receiveWord_of_ok {s : State} {w : Word} {i : Instr} {more : List Word} (h : s.running = true)
    (hd : decode s.cfg (s.cmdq ++ [w]) = .ok (i, more)) : receiveWord w s = exec i ((settle s).withCmdq []) := by
  rw [receiveWord_eq w h, hd]

theorem receiveWord_of_error {s : State} {w : Word} {e : DecodeError} {r : Refusal} (h : s.running = true)
    (hd : decode s.cfg (s.cmdq ++ [w]) = .error e) (hr : refusalOf e = some r) : receiveWord w s = .refused r := by
  rw [receiveWord_eq w h, hd]
  simp only [hr]

theorem receiveWord_of_incomplete {s : State} {w : Word} (h : s.running = true)
    (hd : decode s.cfg (s.cmdq ++ [w]) = .error .incomplete) :
    receiveWord w s = .next ((settle s).withCmdq (s.cmdq ++ [w])) := by
  rw [receiveWord_eq w h, hd]
  rfl

/-- A step with an event to come is that event (00_scope.md R8). -/
theorem step_of_inputs {s : State} {e : Input} {rest : List Input} (h : s.inputs = e :: rest) :
    step s = receive e (s.withInputs rest) := by
  unfold step
  rw [h]

/-- A step with no event to come changes nothing (00_scope.md R9). -/
theorem step_of_no_inputs {s : State} (h : s.running = true) (hi : s.inputs = []) : step s = .next s := by
  obtain ⟨h1, -, h3⟩ := (running_iff s).mp h
  unfold step
  rw [hi]
  simp [noEvent, h1, h3]

/-- Emptying the assembler keeps the block running. -/
theorem withCmdq_running {s : State} (h : s.running = true) {ws : List Word} (hw : cmdqOk s.cfg ws = true) :
    (s.withCmdq ws).running = true := by
  rw [running_iff, typed_iff] at *
  exact ⟨h.1, h.2.1, h.2.2.1, h.2.2.2.1, h.2.2.2.2.1, h.2.2.2.2.2.1, h.2.2.2.2.2.2.1, hw,
    h.2.2.2.2.2.2.2.2.1, h.2.2.2.2.2.2.2.2.2.1, h.2.2.2.2.2.2.2.2.2.2.1, h.2.2.2.2.2.2.2.2.2.2.2⟩

/-- What a host operation can change: PEND, the flag, the operation in progress and the free-value counter
(10_state.md R24). -/
structure HostChange (s t : State) : Prop where
  eq : ∃ m u fg j, t = { s with mem := m, upd := u, fg := fg, freeIdx := j }
  cur : t.mem.cur = s.mem.cur
  wf : t.mem.wf s.cfg = true
  fg : t.fg.ok s.cfg = true
  upd : s.upd = true → t.upd = true

/-- Such a change keeps the block running. -/
theorem HostChange.running {s t : State} (h : HostChange s t) (hr : s.running = true) : t.running = true := by
  obtain ⟨⟨m, u, fg, j, rfl⟩, -, hwf, hfg, -⟩ := h
  rw [running_iff, typed_iff] at *
  exact ⟨hr.1, hr.2.1, hwf, hr.2.2.2.1, hr.2.2.2.2.1, hr.2.2.2.2.2.1, hr.2.2.2.2.2.2.1, hr.2.2.2.2.2.2.2.1,
    hr.2.2.2.2.2.2.2.2.1, hr.2.2.2.2.2.2.2.2.2.1, hr.2.2.2.2.2.2.2.2.2.2.1, hfg⟩

/-- Such changes follow one another. -/
theorem HostChange.trans {s t v : State} (h1 : HostChange s t) (h2 : HostChange t v) : HostChange s v := by
  obtain ⟨⟨m, u, fg, j, rfl⟩, hc, -, -, hu⟩ := h1
  obtain ⟨⟨m', u', fg', j', rfl⟩, hc', hwf', hfg', hu'⟩ := h2
  exact ⟨⟨m', u', fg', j', rfl⟩, hc'.trans hc, hwf', hfg', fun h => hu' (hu h)⟩

theorem settle_change {s : State} (h : s.running = true) : HostChange s (settle s) := by
  obtain ⟨m, j, h1, hm, hc⟩ := settle_spec h
  rw [h1]
  exact ⟨⟨_, _, _, _, rfl⟩, hc, hm, idle_ok _, fun hu => by simp [hu]⟩

theorem hostStep_change {s : State} (h : s.running = true) (choice : Nat) : HostChange s (hostStep choice s) := by
  obtain ⟨m, u, fg, j, h1, hm, hc, hfg⟩ := hostStep_spec h choice
  have hu : s.upd = true → (hostStep choice s).upd = true := by
    intro hu
    unfold hostStep
    split
    · next st _ => cases st <;> exact hu
    · simp [endForeground_eq, hu]
  rw [h1] at hu ⊢
  exact ⟨⟨_, _, _, _, rfl⟩, hc, hm, hfg, hu⟩

/-- A frame-wide operation is a change of the host's, at once or begun. -/
theorem frameWide_change {s : State} (h : s.running = true) {whole : State → State} {fg : Foreground}
    (hw : HostChange s (whole s)) (hfg : s.cfg.submitAtomic = false → fg.ok s.cfg = true) :
    HostChange s (frameWide whole fg s) := by
  unfold frameWide
  split
  · exact hw
  · next ha =>
    exact ⟨⟨s.mem, s.upd, fg, s.freeIdx, rfl⟩, rfl, ((typed_iff s).mp ((running_iff s).mp h).2.2).1,
      hfg (by simpa using ha), id⟩

/-- A whole-frame shift is a change of the host's. -/
theorem shiftFrame_change {s : State} (h : s.running = true) (k : BitVec 8) {f : Word → Word}
    (hf : ∀ w, Word.fits s.cfg.width w = true → Word.fits s.cfg.width (f w) = true) :
    HostChange s (shiftFrame k f s) := by
  obtain ⟨hl, -, ht⟩ := (running_iff s).mp h
  have ht := (typed_iff s).mp ht
  have hp := shiftFrame_frameOk hl ht.1 k hf
  exact ⟨⟨_, _, _, _, rfl⟩, rfl, Memory.writePend_wf ht.1 hp, ht.2.2.2.2.2.2.2.2.2, id⟩

/-- A command that answers a next state does so in a running block, with well-formed operands, and changes what a
host operation can change (10_state.md R24). -/
theorem exec_command_next {s t : State} {i : Instr} (hi : i.isCommand = true) (h : exec i s = .next t) :
    s.running = true ∧ WellFormed s.cfg i = true ∧ HostChange s t := by
  have key : ∀ {check k}, hostOp check s k = .next t → (∀ x, x.running = true → x.cfg = s.cfg → check = none →
      HostChange x (k x)) → s.running = true ∧ check = none ∧ HostChange s t := by
    intro check k h hk
    obtain ⟨hr, hc, rfl⟩ := hostOp_next h
    exact ⟨hr, hc, (settle_change hr).trans (hk _ (settle_running hr) (settle_frame hr).1 hc)⟩
  cases i with
  | reset => cases hi
  | tick => cases hi
  | submit b =>
    simp only [exec, execSubmit] at h
    obtain ⟨hr, hc, hh⟩ := key h fun x hx hcfg hc => by
      have hb : x.cfg.frameOk b = true := by rw [hcfg]; exact (checkBitmap_none _ _).mp hc
      have ht := (typed_iff x).mp ((running_iff x).mp hx).2.2
      exact frameWide_change hx
        ⟨⟨_, _, _, _, rfl⟩, rfl, Memory.writePend_wf ht.1 hb, ht.2.2.2.2.2.2.2.2.2, fun _ => rfl⟩
        (submitSteps_ok hb)
    exact ⟨hr, (checkBitmap_none _ _).mp hc, hh⟩
  | shl k =>
    simp only [exec, execShl] at h
    obtain ⟨hr, -, hh⟩ := key h fun x hx hcfg _ => by
      rw [← hcfg]
      exact frameWide_change hx
        (shiftFrame_change hx k fun w _ => shlWord_fits ((running_iff x).mp hx).1 k w)
        (shiftSteps_ok _ (fun _ => rfl) (fun i hi => by simpa [RowStep.ok] using hi))
    exact ⟨hr, rfl, hh⟩
  | shr k =>
    simp only [exec, execShr] at h
    obtain ⟨hr, -, hh⟩ := key h fun x hx hcfg _ => by
      rw [← hcfg]
      exact frameWide_change hx (shiftFrame_change hx k fun w hw => shrWord_fits k hw)
        (shiftSteps_ok _ (fun _ => rfl) (fun i hi => by simpa [RowStep.ok] using hi))
    exact ⟨hr, rfl, hh⟩
  | publish =>
    simp only [exec, execPublish] at h
    obtain ⟨hr, -, hh⟩ := key h fun x hx _ _ => by
      have ht := (typed_iff x).mp ((running_iff x).mp hx).2.2
      exact ⟨⟨x.mem, true, x.fg, x.freeIdx, rfl⟩, rfl, ht.1, ht.2.2.2.2.2.2.2.2.2, fun _ => rfl⟩
    exact ⟨hr, rfl, hh⟩
  | wrrow r v =>
    simp only [exec, execWrrow] at h
    obtain ⟨hr, hc, hh⟩ := key h fun x hx hcfg hc => by
      have ht := (typed_iff x).mp ((running_iff x).mp hx).2.2
      have hv : Word.fits x.cfg.width v = true := by rw [hcfg]; exact ((checkRow_none _ _ _).mp hc).2
      exact ⟨⟨_, _, _, _, rfl⟩, rfl, Memory.write_wf ht.1 _ _ hv, ht.2.2.2.2.2.2.2.2.2, id⟩
    have := (checkRow_none _ _ _).mp hc
    exact ⟨hr, by simp [WellFormed, this.1, this.2], hh⟩

/-- What one step of a running block can do (00_scope.md R8): nothing, for want of an event; a TICK; a word that
joins the assembler; a word that commits a command; a micro-step of the host. -/
inductive StepCase (s t : State) : Prop where
  | idle (hi : s.inputs = []) (ht : t = s)
  | tick (rest : List Input) (hi : s.inputs = .tick :: rest) (ht : t = advance (display (s.withInputs rest)))
  | word (w : Word) (rest : List Input) (hi : s.inputs = .word w :: rest)
      (hd : decode s.cfg (s.cmdq ++ [w]) = .error .incomplete)
      (ht : t = (settle (s.withInputs rest)).withCmdq (s.cmdq ++ [w]))
  | command (w : Word) (rest : List Input) (i : Instr) (more : List Word) (hi : s.inputs = .word w :: rest)
      (hd : decode s.cfg (s.cmdq ++ [w]) = .ok (i, more)) (hc : i.isCommand = true)
      (ht : exec i ((settle (s.withInputs rest)).withCmdq []) = .next t)
  | hostStep (choice : Nat) (rest : List Input) (hi : s.inputs = .hostStep choice :: rest)
      (ht : t = hostStep choice (s.withInputs rest))

/-- The decoder answers commands only (30_encoding.md R49). -/
theorem isCommand_of_decode {c : Config} {ws more : List Word} {i : Instr} (h : decode c ws = .ok (i, more)) :
    i.isCommand = true := by
  cases ws with
  | nil => cases h
  | cons w ops =>
    simp only [decode] at h
    split at h <;> [cases h; skip]
    next hd _ =>
    split at h <;> [cases h; skip]
    split at h <;> [cases h; skip]
    split at h <;> [skip; cases h]
    next i' hb =>
    injection h with h
    obtain ⟨rfl, -⟩ := Prod.mk.inj h
    cases hd <;> simp only [Header.build] at hb
    · cases hb; rfl
    · cases hb; rfl
    · cases hb; rfl
    · cases hb; rfl
    · split at hb <;> [(cases hb; rfl); cases hb]

/-- The inversion of a step of a running block. -/
theorem step_cases {s t : State} (hr : s.running = true) (h : step s = .next t) : StepCase s t := by
  cases hi : s.inputs with
  | nil =>
    rw [step_of_no_inputs hr hi] at h
    exact .idle hi (by injection h with h; exact h.symm)
  | cons e rest =>
    rw [step_of_inputs hi] at h
    have hr' : (s.withInputs rest).running = true := by simpa using hr
    cases e with
    | rst =>
      simp only [receive, exec, execReset] at h
      obtain ⟨-, hb, -⟩ := whenFirst_next h
      have := ((running_iff s).mp hr).2.1
      simp_all
    | tick =>
      rw [receive, exec, execTick, whenRunning_of_running hr'] at h
      exact .tick rest hi (by injection h with h; exact h.symm)
    | word w =>
      simp only [receive] at h
      cases hd : decode s.cfg (s.cmdq ++ [w]) with
      | ok r =>
        obtain ⟨i, more⟩ := r
        rw [receiveWord_of_ok hr' (by simpa using hd)] at h
        exact .command w rest i more hi hd (isCommand_of_decode hd) h
      | error e =>
        cases e with
        | incomplete =>
          rw [receiveWord_of_incomplete hr' (by simpa using hd)] at h
          exact .word w rest hi hd (by injection h with h; exact h.symm)
        | illegalCommand =>
          rw [receiveWord_of_error (e := .illegalCommand) hr' (by simpa using hd) rfl] at h
          cases h
        | operandTooWide =>
          rw [receiveWord_of_error (e := .operandTooWide) hr' (by simpa using hd) rfl] at h
          cases h
        | rowOutOfRange =>
          rw [receiveWord_of_error (e := .rowOutOfRange) hr' (by simpa using hd) rfl] at h
          cases h
    | hostStep choice =>
      simp only [receive, receiveHostStep] at h
      rw [whenRunning_of_running hr'] at h
      exact .hostStep choice rest hi (by injection h with h; exact h.symm)

/-- What a TICK does to a running block, in one record (41_frame_engine.md R73). -/
theorem tick_eq {s : State} (h : s.typed = true) :
    advance (display s) =
      let p := payload s.cfg s.row ((s.mem.read .cur s.row).getD 0)
      { s with pay := p, shift := p, out := p,
               trace := s.trace ++ (.latchDeassert :: p.map .byte ++ [.latchAssert]),
               row := if s.row + 1 = s.cfg.rows then 0 else s.row + 1,
               mem := if s.row + 1 = s.cfg.rows ∧ s.upd = true then s.mem.adopt else s.mem,
               upd := if s.row + 1 = s.cfg.rows then false else s.upd } := by
  rw [display_eq h, advance_eq]
  by_cases hw : s.row + 1 = s.cfg.rows <;> simp [hw]

end Sys2Proof.Machine
end

