-- ==== Sys2Proof/Tests/Slice0.lean ====
section
/-!
SUPPORT. Tests. Expected results are the vectors of spec 95_test_vectors.md (named in each docstring) or hand
calculation from a numbered rule; each `witness_` theorem shows a state and operands that meet all hypotheses of
the statement it names.
-/

namespace Sys2Proof.Tests

open Sys2Proof.Machine

/-- The next state of a result, if it is one. -/
def nextOf : Result → Option State
  | .next s => some s
  | .fault _ => none
  | .refused _ => none

/-- The refusal of a result, if it is one. -/
def refusalIn : Result → Option Refusal
  | .next _ => none
  | .fault _ => none
  | .refused r => some r

/-- A running instance with these frames, row and flag. -/
def at_ (c : Config) (cur pend : Frame) (row : Nat) (upd : Bool) : State :=
  { State.resetOf c with mem := { cur := cur, pend := pend }, row := row, upd := upd }

/-- The small configuration. -/
def sm (cur pend : Frame) (row : Nat) (upd : Bool) : State := at_ Config.small cur pend row upd

/-- The small configuration in reference mode. -/
def smRef : Config := { Config.small with submitAtomic := false }

/-! ## Well-formedness: each check refuses an ill-formed term -/

/-- A bitmap with a row missing (42_producer_ops.md R87). -/
theorem test_wellFormed_short_bitmap : WellFormed Config.small (.submit [0xAA]) = false := by decide

/-- A bitmap with a row too many. -/
theorem test_wellFormed_long_bitmap : WellFormed Config.small (.submit [1, 2, 3]) = false := by decide

/-- A bitmap word of nine bits in the small configuration (30_encoding.md R48). -/
theorem test_wellFormed_wide_bitmap : WellFormed Config.small (.submit [0xAA, 0x100]) = false := by decide

/-- V-E12: row 2 of two (20_memory.md R37). -/
theorem test_wellFormed_row : WellFormed Config.small (.wrrow 2 1) = false := by decide

/-- V-E13: an operand of nine bits. -/
theorem test_wellFormed_wide_row_word : WellFormed Config.small (.wrrow 0 0x100) = false := by decide

/-- 00_scope.md R6: no rows, 257 rows, a width that is no multiple of 8, a wrong device count, a reset frame of the
wrong shape. -/
theorem test_illegal_configurations :
    (Config.normative 0 8 1).legal = false ∧ ({ Config.normative 1 32 37 with rows := 257 }).legal = false ∧
    (Config.normative 2 12 2).legal = false ∧ (Config.normative 12 32 5).legal = false ∧
    ({ Config.small with curReset := [0] }).legal = false ∧
    ({ Config.small with pendReset := [0, 0x100] }).legal = false := by decide

/-- 00_scope.md R2: both configurations of the spec, with N = 6 and N = 2 and RW = 4 and 1. -/
theorem test_legal_configurations :
    Config.reference.legal = true ∧ Config.reference.n = 6 ∧ Config.reference.rw = 4 ∧
    Config.small.legal = true ∧ Config.small.n = 2 ∧ Config.small.rw = 1 := by decide

/-! ## Decoding: words written out from 30_encoding.md R47, R49 -/

/-- V-P1. -/
theorem test_decode_submit :
    decode Config.small [0x01000000, 0x000000AA, 0x00000055] = .ok (.submit [0xAA, 0x55], []) := by decide

/-- V-E9: SHL 255. -/
theorem test_decode_shl : decode Config.reference [0x020000FF] = .ok (.shl 255, []) := by decide

/-- V-S12: SHR 31. -/
theorem test_decode_shr : decode Config.reference [0x0300001F] = .ok (.shr 31, []) := by decide

/-- V-P3. -/
theorem test_decode_publish : decode Config.reference [0x04000000] = .ok (.publish, []) := by decide

/-- V-P6: row 11, an all-ones word (V-E14: no upper bits when WIDTH is 32). -/
theorem test_decode_wrrow :
    decode Config.reference [0x05000B00, 0xFFFFFFFF] = .ok (.wrrow 11 0xFFFFFFFF, []) := by decide

/-- The header fields of R47, bit 24 up for OPC, bit 16 up for RSV, bit 8 up for ROWF. -/
theorem test_headerFields : headerFields 0x05A60B7C = ⟨0x05, 0xA6, 0x0B, 0x7C⟩ := by decide

/-- V-E1 to V-E8: illegal header words. -/
theorem test_decode_illegal :
    ([0x00000000, 0x06000000, 0xFF000000, 0x01000001, 0x02010000, 0x02000100, 0x04000100, 0x05000B01] :
      List Word).all (fun h => decode Config.reference [h, 0] == .error .illegalCommand) = true := by decide

/-- V-E11: row 12 of twelve. -/
theorem test_decode_row_out_of_range :
    decode Config.reference [0x05000C00, 1] = .error .rowOutOfRange := by decide

/-- V-E13. -/
theorem test_decode_too_wide : decode Config.small [0x05000000, 0x00000100] = .error .operandTooWide := by decide

/-- V-D4: a PUBLISH header inside a SUBMIT is an operand, here too wide. -/
theorem test_decode_header_as_operand :
    decode Config.small [0x01000000, 0x04000000, 0x00000000] = .error .operandTooWide := by decide

/-- V-D1, before the last word. -/
theorem test_decode_incomplete : decode Config.small [0x01000000, 0x000000AA] = .error .incomplete := by decide

/-- The table's words, numbered as the table numbers them; the pin pattern is read as TICK (log entry 15). -/
theorem test_decodeTableWord :
    decodeTableWord 8 1 = some .tick ∧ decodeTableWord 8 0 = none ∧
    decodeTableWord 32 0x01000000 = some (.submit (List.replicate 12 0)) ∧
    decodeTableWord 32 0x02000004 = some (.shl 4) ∧ decodeTableWord 32 0x03000004 = some (.shr 4) ∧
    decodeTableWord 32 0x04000000 = some .publish ∧ decodeTableWord 32 0x05000B00 = some (.wrrow 11 0) ∧
    decodeTableWord 64 0x0000000705000B00 = some (.wrrow 11 7) ∧ decodeTableWord 32 0x06000000 = none := by decide

/-! ## One step of each operation -/

/-- V-C1 and 10_state.md R28: what RESET leaves, over any earlier contents. -/
theorem test_reset_values :
    (nextOf (exec .reset { State.powerOn Config.small with row := 1, upd := true, cmdq := [7] })).map
      (fun t => (t.mem, t.row, t.upd, t.cmdq)) = some ({ cur := [0, 0], pend := [0, 0] }, 0, false, []) := by decide

/-- V-C1: the four events. -/
theorem test_reset_trace :
    (nextOf (exec .reset (State.powerOn Config.small))).map (·.trace) =
      some [.rstDeassert, .rstAssert, .latchIdle, .oeEnable] := by decide

/-- V-I1, order B: the payload is the old row 1, and afterwards CUR is PEND. -/
theorem test_tick_wrap_adopts :
    (nextOf (exec .tick (sm [0xAA, 0x55] [0x11, 0x22] 1 true))).map (fun t => (t.out, t.mem.cur, t.row, t.upd)) =
      some ([0x02, 0x55], [0x11, 0x22], 0, false) := by decide

/-- V-T6: the first row of bank B, and the byte order of a row word. -/
theorem test_tick_bank_b_byte_order :
    (nextOf (exec .tick (at_ Config.reference [0, 0, 0, 0, 0, 0, 0, 0, 0x12345678, 0, 0, 0]
      (List.replicate 12 0) 8 false))).map (fun t => (t.trace.drop 4, t.row)) =
      some ([.latchDeassert, .byte 0x00, .byte 0x01, .byte 0x12, .byte 0x34, .byte 0x56, .byte 0x78, .latchAssert],
        9) := by decide

/-- V-P2: a SUBMIT over a frame that waits. -/
theorem test_submit :
    (nextOf (exec (.submit [0x11, 0x22]) (sm [0, 0] [0xAA, 0x55] 0 true))).map
      (fun t => (t.mem.cur, t.mem.pend, t.upd)) = some ([0, 0], [0x11, 0x22], true) := by decide

/-- V-S17 and V-S19: truncation at 8 bits; UPD stays. -/
theorem test_shl :
    (nextOf (exec (.shl 1) (sm [0, 0] [0xAA, 0x55] 0 false))).map (fun t => (t.mem.pend, t.upd)) =
      some ([0x54, 0xAA], false) := by decide

/-- V-S21: the amount WIDTH clears the row. -/
theorem test_shl_by_width :
    (nextOf (exec (.shl 8) (sm [0, 0] [0xFF, 0xFF] 0 false))).map (·.mem.pend) = some [0, 0] := by decide

/-- V-S10: a logical shift, the top bit becomes 0 and the bottom bit is lost. -/
theorem test_shr :
    (nextOf (exec (.shr 1) (at_ (Config.normative 1 32 5) [0] [0x80000001] 0 false))).map (·.mem.pend) =
      some [0x40000000] := by decide

/-- V-S22. -/
theorem test_shr_to_last_bit :
    (nextOf (exec (.shr 7) (sm [0, 0] [0x80, 0xFF] 0 false))).map (·.mem.pend) = some [1, 1] := by decide

/-- V-P3. -/
theorem test_publish :
    (nextOf (exec .publish (sm [0, 0] [0x54, 0xAA] 0 false))).map (fun t => (t.mem.pend, t.upd)) =
      some ([0x54, 0xAA], true) := by decide

/-- V-I3's last edit: one row of PEND, UPD unchanged. -/
theorem test_wrrow :
    (nextOf (exec (.wrrow 1 0x22) (sm [0x11, 0x55] [0x11, 0x55] 0 false))).map
      (fun t => (t.mem.cur, t.mem.pend, t.upd)) = some ([0x11, 0x55], [0x11, 0x22], false) := by decide

/-- V-E12, at the command port. -/
theorem test_wrrow_refused :
    refusalIn (step { sm [0, 0] [0, 0] 0 false with cmdq := [0x05000200], inputs := [.word 1] }) =
      some .rowOutOfRange := by decide

/-- V-D1: the second word of a SUBMIT joins CMDQ and touches nothing else. -/
theorem test_word_waits :
    (nextOf (step { sm [0, 0] [3, 4] 0 false with cmdq := [0x01000000], inputs := [.word 0xAA] })).map
      (fun t => (t.cmdq, t.mem.pend, t.upd)) = some ([0x01000000, 0xAA], [3, 4], false) := by decide

/-- P4, line 4: in reference mode the first micro-step of a SUBMIT writes one row. -/
theorem test_hostStep :
    (nextOf (step { at_ smRef [0, 0] [0xAA, 0x55] 1 true with
        fg := submitSteps [0x11, 0x22], inputs := [.hostStep 0] })).map (fun t => (t.mem.pend, t.upd)) =
      some ([0x11, 0x55], true) := by decide

/-- V-CH1: two bytes into the chain; the pins follow at the latch edge. -/
theorem test_sendByte :
    ((sendByte (sm [0, 0] [0, 0] 0 false) 0x01).shift, (cascadeSend [0x01, 0xAA] (sm [0, 0] [0, 0] 0 false)).out) =
      (([0x00, 0x01], [0x01, 0xAA]) : List Byte × List Byte) := by decide

/-- A table word runs as the first instruction after reset. -/
theorem test_withFetchWord :
    (nextOf (step (State.reset.withFetchWord 32 0x04000000))).map (·.upd) = some true ∧
    (nextOf (step (State.reset.withFetchWord 64 0x0000000705000B00))).map (fun t => t.mem.pend.getLast?) =
      some (some 7) ∧
    (nextOf (step (State.reset.withFetchWord 8 1))).map (·.row) = some 1 := by decide

/-! ## The textual form (30_encoding.md R59, R60) -/

/-- A SUBMIT line, numbers in two bases. -/
theorem test_parse_submit : parseLine "SUBMIT 0xAA, 0b01010101" = some (.op (.submit [0xAA, 0x55])) := by decide

/-- A WRROW line. -/
theorem test_parse_wrrow : parseLine "WRROW 5, 0x00000001" = some (.op (.wrrow 5 1)) := by decide

/-- FRAME is ROWS ticks and TICKS 3 is three. -/
theorem test_pseudo_operations :
    assemble Config.small [.frame, .ticks 3, .op .publish] = List.replicate 5 .tick ++ [.word 0x04000000] := by decide

/-! ## Witnesses: the hypotheses of each statement can be met -/

/-- A running small block at its last row with the flag set, its two frames different, and these events to come. -/
def wS (ins : List Input) : State := (sm [0xAA, 0x55] [0x11, 0x22] 1 true).withInputs ins

/-- The same at row 0 with the flag clear. -/
def wC (ins : List Input) : State := (sm [0xAA, 0x55] [0x11, 0x22] 0 false).withInputs ins

/-- The same as `wS` in reference mode. -/
def wR (ins : List Input) : State := (at_ smRef [0xAA, 0x55] [0x11, 0x22] 1 true).withInputs ins

/-- The run of `n` steps answers a next state of which this holds. -/
def runs (n : Nat) (s : State) (p : State → Bool) : Bool := ((nextOf (run n s)).map p).getD false

/-- What `runs` says. -/
theorem runs_spec {n : Nat} {s : State} {p : State → Bool} (h : runs n s p = true) :
    ∃ t, run n s = .next t ∧ p t = true := by
  unfold runs at h
  cases hr : run n s with
  | next t => exact ⟨t, rfl, by simpa [hr, nextOf] using h⟩
  | fault r => exact nomatch r
  | refused r => rw [hr] at h; cases h

/-- One step answers a next state of which this holds. -/
def steps (s : State) (p : State → Bool) : Bool := ((nextOf (step s)).map p).getD false

/-- What `steps` says. -/
theorem steps_spec {s : State} {p : State → Bool} (h : steps s p = true) : ∃ t, step s = .next t ∧ p t = true := by
  unfold steps at h
  cases hr : step s with
  | next t => exact ⟨t, rfl, by simpa [hr, nextOf] using h⟩
  | fault r => exact nomatch r
  | refused r => rw [hr] at h; cases h

/-- The operation answers a next state of which this holds. -/
def execs (i : Instr) (s : State) (p : State → Bool) : Bool := ((nextOf (exec i s)).map p).getD false

/-- What `execs` says. -/
theorem execs_spec {i : Instr} {s : State} {p : State → Bool} (h : execs i s p = true) :
    ∃ t, exec i s = .next t ∧ p t = true := by
  unfold execs at h
  cases hr : exec i s with
  | next t => exact ⟨t, rfl, by simpa [hr, nextOf] using h⟩
  | fault r => exact nomatch r
  | refused r => rw [hr] at h; cases h

theorem witness_DecodeReadsBackEncode :
    ([.submit (List.replicate 12 0xFFFFFFFF), .shl 255, .shr 0, .publish, .wrrow 11 0xFFFFFFFF] : List Instr).all
      (fun i => i.isCommand && WellFormed Config.reference i) = true := by decide

theorem witness_AcceptedWordsAreTheEncoding :
    decode Config.small [0x01000000, 0xFF, 0, 7] = .ok (.submit [0xFF, 0], [7]) := by decide

/-- Each kind of illegal header, at the values next to the legal ones; an operand word of WIDTH + 1 bits; the first
row number out of range. -/
theorem witness_IllegalCommandsRefused :
    (wS [.word 0x06000000]).running = true ∧ (wS [.word 0x06000000]).cmdq = [] ∧
    (headerFields 0x00000000).opc = 0 ∧ 6 ≤ (headerFields 0x06000000).opc.toNat ∧
    (headerFields 0x02010000).rsv ≠ 0 ∧ ((headerFields 0x02000100).rowf ≠ 0 ∧ (headerFields 0x02000100).opc ≠ 5) ∧
    ((headerFields 0x05000B01).amt ≠ 0 ∧ (headerFields 0x05000B01).opc ≠ 2 ∧ (headerFields 0x05000B01).opc ≠ 3) ∧
    ((wS [.word 0x100]).withCmdq [0x05000100]).running = true ∧
    decodeHeader 0x05000100 = some (.wrrow 1) ∧ (Header.wrrow 1).operandWords Config.small = 1 ∧
    2 ^ Config.small.width ≤ (0x100 : Word).toNat ∧
    ((wS [.word 0xFF]).withCmdq [0x05000200]).running = true ∧ decodeHeader 0x05000200 = some (.wrrow 2) ∧
    (0xFF : Word).toNat < 2 ^ Config.small.width ∧ Config.small.rows ≤ (2 : BitVec 8).toNat := by decide

theorem witness_PartialCommandHasNoEffect :
    (wS [.word 0x01000000]).running = true ∧ (wS [.word 0x01000000]).fg = .idle ∧
    decode Config.small ([] ++ [0x01000000]) = .error .incomplete := by decide

theorem witness_CommandCommitsAtLastWord :
    quiet (wS ((Instr.submit [1, 0xFF]).events ++ [.tick])) = true ∧
    (Instr.submit [1, 0xFF]).isCommand = true ∧ WellFormed Config.small (.submit [1, 0xFF]) = true := by decide

theorem witness_TickBetweenWordsSeesNoCommand :
    (wS []).running = true ∧ (wS []).fg = .idle ∧ decode (wS []).cfg ((wS []).cmdq ++ [0x05000000]) =
      .error .incomplete := by decide

theorem witness_StepRunsDecodedCommand :
    ((wS [.word 0xFF]).withCmdq [0x05000100]).running = true ∧
    decode Config.small ([0x05000100] ++ [0xFF]) = .ok (.wrrow 1 0xFF, []) := by decide

theorem witness_StepRunsPinEvents :
    (State.powerOn Config.small).begun = false ∧ (wS [.tick]).inputs = .tick :: [] ∧ (wS []).running = true := by
  decide

/-- For TickNextState, TickSelectsOneRow, RowStepsByTickOnly and SwapOnlyAtWraparoundWithFlag: a wrapping TICK with
the flag set and clear, a TICK that does not wrap, both bank orders. -/
theorem witness_TickNextState :
    (wS []).running = true ∧ (wC []).running = true ∧ (sm [0, 0] [1, 2] 1 false).running = true ∧
    (State.resetOf { Config.reference with bankAFirst := false }).running = true := by decide

/-- Also for the last clause of SwapOnlyAtWraparoundWithFlag: another operation, and another event, that completes. -/
theorem witness_RowStepsByTickOnly :
    Instr.publish ≠ .tick ∧ execs .publish (wS []) (fun _ => true) = true ∧
    steps (wS [.word 0x01000000]) (fun _ => true) = true := by decide

/-- For RowLineSetExactlyForItsRow and PixelBytesMostSignificantFirst: the first and the last row, byte and bit. -/
theorem witness_RowLineSetExactlyForItsRow :
    Config.reference.legal = true ∧ 11 < Config.reference.rows ∧ 1 < Config.reference.nsel ∧
    3 < Config.reference.npix := by decide

theorem witness_DisplayedFrameChangesOnlyAtAdoption :
    (wS [.tick]).running = true ∧ steps (wS [.tick]) (fun t => t.mem.cur != (wS []).mem.cur) = true := by decide

theorem witness_SubmitNextState :
    guardedRunning (wS []) = true ∧ Config.small.frameOk [0, 0xFF] = true := by decide

/-- For ShiftLaws, ShiftsMovePixels, LeftShiftsCompose and RightAfterLeftClearsTopBits. -/
theorem witness_ShiftLaws :
    guardedRunning (wS []) = true ∧ (wS []).cfg.overwideZero = true ∧
    execs (.shl 3) (wS []) (fun _ => true) = true ∧ execs (.shr 255) (wS []) (fun _ => true) = true ∧
    1 < (wS []).cfg.rows ∧ 7 < (wS []).cfg.width ∧ (3 : BitVec 8).toNat + (252 : BitVec 8).toNat ≤ 255 := by decide

theorem witness_OverwideShiftIsFree :
    guardedRunning (State.resetOf { Config.small with overwideZero := false }) = true ∧
    Config.small.width ≤ (8 : BitVec 8).toNat := by decide

theorem witness_PublishNextState : (wR []).running = true ∧ (wR []).fg = .idle := by decide

/-- The last row and the first row out of range; the widest word and the first too wide. -/
theorem witness_WrrowNextState :
    (wS []).running = true ∧ (wS []).fg = .idle ∧ (0xFF : Word).toNat < 2 ^ (wS []).cfg.width ∧
    (1 : BitVec 8).toNat < (wS []).cfg.rows ∧ (wS []).cfg.rows ≤ (2 : BitVec 8).toNat ∧
    2 ^ (wS []).cfg.width ≤ (0x100 : Word).toNat := by decide

theorem witness_BadBitmapRefused :
    (wS []).running = true ∧ ([0xAA] : Frame).length ≠ (wS []).cfg.rows ∧
    ([0xAA, 0x100] : Frame).length = (wS []).cfg.rows ∧ 2 ^ (wS []).cfg.width ≤ (0x100 : Word).toNat := by decide

/-- In reference mode, with an operation in progress. -/
theorem witness_HostOperationsTakeEffectInOrder :
    Instr.publish.isCommand = true ∧ { wR [] with fg := submitSteps [1, 2] }.running = true := by decide

theorem witness_HostOperationFrame :
    Instr.publish.isCommand = true ∧ execs .publish (wR []) (fun _ => true) = true := by decide

theorem witness_PlainWritesAreIdempotent :
    guardedRunning (wC []) = true ∧ execs (.submit [7, 8]) (wC []) (fun _ => true) = true ∧
    execs .publish (wC []) (fun _ => true) = true ∧ execs (.wrrow 1 9) (wC []) (fun _ => true) = true ∧
    execs (.shl 0) (wC []) (fun _ => true) = true ∧ execs (.shr 0) (wC []) (fun _ => true) = true := by decide

theorem witness_TickAndHostOperationCommute :
    (Instr.shl 1).isCommand = true ∧ wrapping (wC []) = false ∧ execs (.shl 1) (wC []) (fun _ => true) = true ∧
    execs .tick (wC []) (fun _ => true) = true := by decide

theorem witness_NoIntermediateOutput : ([0x01, 0xAA] : List Byte).length = (wS []).shift.length := by decide

/-- For StatusOutputsCopyState: the flag set and clear. -/
theorem witness_StatusOutputsCopyState : (wS []).running = true ∧ (wC []).running = true := by decide

/-- For ResetNextState, ResetBeginsRunning and EventsBeforeResetRefused. -/
theorem witness_ResetNextState :
    (State.powerOn Config.reference).cfg.legal = true ∧ (State.powerOn Config.reference).begun = false ∧
    Config.reference.curReset = List.replicate 12 0 ∧ Config.reference.pendReset = List.replicate 12 0 := by decide

theorem witness_EventsBeforeResetRefused :
    ((State.powerOn Config.small).withInputs [.word 0x04000000]).inputs = .word 0x04000000 :: [] ∧
    Instr.tick ≠ .reset := by decide

theorem witness_SecondResetRefused :
    (wS [.rst]).cfg.legal = true ∧ (wS [.rst]).begun = true ∧ (wS [.rst]).inputs = .rst :: [] := by decide

theorem witness_IllegalConfigurationRefused : (State.resetOf (Config.normative 12 32 5)).cfg.legal = false := by
  decide

/-- ROW at ROWS, the first value out of range. -/
theorem witness_IllTypedStateRefused :
    (sm [0, 0] [0, 0] 2 false).cfg.legal = true ∧ (sm [0, 0] [0, 0] 2 false).begun = true ∧
    (sm [0, 0] [0, 0] 2 false).typed = false ∧ (sm [0, 0] [0, 0] 2 false).inputs = [] := by decide

theorem witness_ResetStateIsRunning : Config.small.legal = true := by decide

theorem witness_StepKeepsRunning :
    (wS [.tick]).running = true ∧ steps (wS [.tick]) (fun _ => true) = true := by decide

/-- For StepKeepsTraceShape and StepKeepsOneRowLit. -/
theorem witness_StepKeepsTraceShape :
    (wS [.tick]).running = true ∧ TraceShape (wS [.tick]).cfg (wS [.tick]).trace ∧ oneRowLit (wS [.tick]) ∧
    steps (wS [.tick]) (fun _ => true) = true :=
  ⟨by decide, ⟨[], by decide, by decide⟩, fun h => absurd rfl h, by decide⟩

/-- For RowCountsTicks and TraceCountsTicks. -/
theorem witness_RowCountsTicks :
    (wS [.tick, .word 0x04000000]).running = true ∧
    runs 2 (wS [.tick, .word 0x04000000]) (fun t => t.row == 0) = true := by decide

/-- For NoTearingWithinCycle and FlagRecordsPublication: a publication and the first TICK of a cycle. -/
theorem witness_NoTearingWithinCycle :
    guardedRunning (wC [.word 0x04000000, .tick]) = true ∧
    runs 2 (wC [.word 0x04000000, .tick]) (fun _ => true) = true ∧
    (wC [.word 0x04000000, .tick]).row + tickCount (executed 2 (wC [.word 0x04000000, .tick])) < 2 := by decide

theorem witness_UnpublishedEditsInvisible :
    guardedRunning (wC [.word 0x02000001, .tick]) = true ∧ (wC []).upd = false ∧
    runs 2 (wC [.word 0x02000001, .tick]) (fun _ => true) = true ∧
    (executed 2 (wC [.word 0x02000001, .tick])).all (fun i => !publishes i) = true := by decide

theorem witness_DisplayedFrameIsWhole :
    guardedRunning (wC ((Instr.submit [1, 2]).events ++ [.tick])) = true ∧
    runs 4 (wC ((Instr.submit [1, 2]).events ++ [.tick])) (fun _ => true) = true ∧
    executed 4 (wC ((Instr.submit [1, 2]).events ++ [.tick])) = [.submit [1, 2], .tick] := by decide

theorem witness_PublicationAdoptedWithinCycle :
    (wS [.word 0x02000001, .tick]).running = true ∧ (wS []).upd = true ∧
    runs 1 (wS [.word 0x02000001, .tick]) (fun u => u.inputs == [.tick]) = true ∧
    (wS []).row + tickCount (executed 1 (wS [.word 0x02000001, .tick])) + 1 = (wS []).cfg.rows := by decide

theorem witness_LastSubmissionWins :
    let s := wS ((Instr.submit [3, 4]).events ++ [.tick])
    guardedRunning s = true ∧ runs 4 s (fun _ => true) = true ∧
    executed 4 s = [] ++ .submit [3, 4] :: [.tick] ∧ s.row + tickCount [] < s.cfg.rows ∧
    writesPend .tick = false ∧ s.row + tickCount (executed 4 s) = s.cfg.rows := by decide

theorem witness_CyclesRepeatWithoutSubmission :
    (wS (List.replicate 3 .tick)).running = true ∧
    (wS (List.replicate 3 .tick)).inputs = List.replicate (2 - 1 + 1 * 2) .tick := by decide

theorem witness_SourceScenarioPayloads :
    quiet (wS ((Instr.submit [0b10101010, 0b01010101]).events ++ List.replicate (2 - 1 + 3) .tick)) = true := by decide

theorem witness_FirstCycleShowsResetFrame :
    Config.small.legal = true ∧
    runs 1 ((State.resetOf Config.small).withInputs [.tick]) (fun _ => true) = true ∧
    tickCount (executed 1 ((State.resetOf Config.small).withInputs [.tick])) ≤ Config.small.rows := by decide

theorem witness_MicroStepsReachGuardedResult :
    (wR []).running = true ∧ (wR []).cfg.submitAtomic = false ∧ (wR []).cfg.overwideZero = true ∧
    (wR []).fg = .idle ∧ execs (.submit [1, 2]) { wR [] with cfg := { (wR []).cfg with submitAtomic := true } }
      (fun _ => true) = true ∧
    ([5, 0, 0] : List Nat).length = (wR []).cfg.rows + 1 := by decide

end Sys2Proof.Tests
end

section
/-!
An illegal instance (spec 00_scope.md R6): every guard of the model asks for legal parameters first, so every
operation, every event and the step without an event answer the one refusal.
-/

namespace Sys2Proof.Machine

theorem whenRunning_of_illegal {s : State} (h : s.cfg.legal = false) (k : State → Result) :
    whenRunning s k = .refused .illegalConfiguration := by
  simp [whenRunning, h]

theorem whenFirst_of_illegal {s : State} (h : s.cfg.legal = false) (k : State → Result) :
    whenFirst s k = .refused .illegalConfiguration := by
  simp [whenFirst, h]

theorem noEvent_of_illegal {s : State} (h : s.cfg.legal = false) :
    noEvent s = .refused .illegalConfiguration := by
  simp [noEvent, h]

/-- The configuration is asked for before the operands are (log entry 11). -/
theorem hostOp_of_illegal {s : State} (h : s.cfg.legal = false) (check : Option Refusal) (k : State → State) :
    hostOp check s k = .refused .illegalConfiguration :=
  whenRunning_of_illegal h _

theorem exec_of_illegal {s : State} (h : s.cfg.legal = false) (i : Instr) :
    exec i s = .refused .illegalConfiguration := by
  cases i with
  | reset => rw [exec, execReset, whenFirst_of_illegal h]
  | tick => rw [exec, execTick, whenRunning_of_illegal h]
  | submit b => rw [exec, execSubmit, hostOp_of_illegal h]
  | shl k => rw [exec, execShl, hostOp_of_illegal h]
  | shr k => rw [exec, execShr, hostOp_of_illegal h]
  | publish => rw [exec, execPublish, hostOp_of_illegal h]
  | wrrow r v => rw [exec, execWrrow, hostOp_of_illegal h]

theorem receive_of_illegal {s : State} (h : s.cfg.legal = false) (e : Input) :
    receive e s = .refused .illegalConfiguration := by
  cases e with
  | rst => rw [receive, exec_of_illegal h]
  | tick => rw [receive, exec_of_illegal h]
  | word w => rw [receive, receiveWord, whenRunning_of_illegal h]
  | hostStep choice => rw [receive, receiveHostStep, whenRunning_of_illegal h]

theorem step_of_illegal {s : State} (h : s.cfg.legal = false) : step s = .refused .illegalConfiguration := by
  unfold step
  split
  case h_1 => exact noEvent_of_illegal h
  case h_2 e rest _ => exact receive_of_illegal (s := s.withInputs rest) h e

/-- Settles O38: no step and no operation gets past the check of the parameters. -/
theorem illegalConfigurationRefused : Obligations.IllegalConfigurationRefused :=
  fun _ h => ⟨step_of_illegal h, exec_of_illegal h⟩

end Sys2Proof.Machine
end

section
/-!
The typing invariant along a run (spec 10_state.md R25, R28): RESET establishes it, every step keeps it, an ill-typed
state is refused, and the status outputs copy the state (R26).
-/

namespace Sys2Proof.Machine

/-! ## The reset values -/

/-- What 10_state.md R28 fixes of a state right after RESET: all but SHIFT, OUT and PAY, of which only the lengths
(R20, R22, R23). The frames are the instance's reset frames (93_implementation_defined.md U14). -/
structure HasResetValues (s : State) : Prop where
  begun : s.begun = true
  mem : s.mem = { cur := s.cfg.curReset, pend := s.cfg.pendReset }
  row : s.row = 0
  upd : s.upd = false
  latch : s.latch = .asserted
  srrst : s.srrst = .asserted
  oe : s.oe = .enabled
  cmdq : s.cmdq = []
  pay : s.pay.length = s.cfg.n
  shift : s.shift.length = s.cfg.n
  out : s.out.length = s.cfg.n
  trace : s.trace = initEvents
  fg : s.fg = .idle

/-- In a legal instance the reset values meet the typing invariant: the reset frames have the instance's shape and
row 0 exists (00_scope.md R6). -/
theorem HasResetValues.running {s : State} (h : HasResetValues s) (hl : s.cfg.legal = true) : s.running = true := by
  have hm : s.mem.wf s.cfg = true := h.mem ▸ resetOf_mem_wf hl
  have hrow : s.row < s.cfg.rows := h.row ▸ Config.legal_rows_pos hl
  have hq : cmdqOk s.cfg s.cmdq = true := h.cmdq ▸ rfl
  have hfg : s.fg.ok s.cfg = true := h.fg ▸ idle_ok _
  exact (running_iff s).mpr ⟨hl, h.begun, (typed_iff s).mpr
    ⟨hm, hrow, h.latch, h.srrst, h.oe, hq, h.pay, h.shift, h.out, hfg⟩⟩

theorem resetOf_hasResetValues (c : Config) : HasResetValues (State.resetOf c) where
  begun := rfl
  mem := rfl
  row := rfl
  upd := rfl
  latch := rfl
  srrst := rfl
  oe := rfl
  cmdq := rfl
  pay := List.length_replicate
  shift := List.length_replicate
  out := List.length_replicate
  trace := rfl
  fg := rfl

/-- The assignments of RESET, CascadeInit and the open values leave the reset values, whatever the state was before
(70_reset_and_hazards.md R123). -/
theorem clear_init_open_hasResetValues (s : State) :
    HasResetValues (openValues (cascadeInit (clearState s))) := by
  rw [cascadeInit_eq]
  exact { begun := rfl, mem := rfl, row := rfl, upd := rfl, latch := rfl, srrst := rfl, oe := rfl, cmdq := rfl
          pay := freeBytes_length _ _, shift := freeBytes_length _ _, out := freeBytes_length _ _
          trace := rfl, fg := rfl }

/-- RESET as the first event of a legal instance takes place, keeps the parameters and leaves the reset values
(70_reset_and_hazards.md R123, R124). -/
theorem exec_reset_of_not_begun {s : State} (hl : s.cfg.legal = true) (hb : s.begun = false) :
    ∃ t, exec .reset s = .next t ∧ t.cfg = s.cfg ∧ HasResetValues t :=
  ⟨openValues (cascadeInit (clearState s)), by rw [exec, execReset, whenFirst_of_not_begun hl hb],
    by rw [cascadeInit_eq]; rfl, clear_init_open_hasResetValues s⟩

/-! ## The invariant along a step -/

/-- A TICK keeps the block running: the payload has N bytes, the row index stays below ROWS and the adoption keeps
the memory's form (41_frame_engine.md R73 to R76). -/
theorem tick_running {s : State} (h : s.running = true) : (advance (display s)).running = true := by
  obtain ⟨hl, hb, ht⟩ := (running_iff s).mp h
  obtain ⟨hm, hrow, hlatch, hsrrst, hoe, hq, -, -, -, hfg⟩ := (typed_iff s).mp ht
  have hrow' : (if s.row + 1 = s.cfg.rows then 0 else s.row + 1) < s.cfg.rows := by split <;> omega
  have hm' : (if s.row + 1 = s.cfg.rows ∧ s.upd = true then s.mem.adopt else s.mem).wf s.cfg = true := by
    split
    · exact Memory.adopt_wf hm
    · exact hm
  rw [tick_eq ht, running_iff, typed_iff]
  exact ⟨hl, hb, hm', hrow', hlatch, hsrrst, hoe, hq, payload_length _ _ _, payload_length _ _ _,
    payload_length _ _ _, hfg⟩

theorem tick_cfg {s : State} (h : s.running = true) : (advance (display s)).cfg = s.cfg := by
  rw [tick_eq ((running_iff s).mp h).2.2]

theorem HostChange.cfg_eq {s t : State} (h : HostChange s t) : t.cfg = s.cfg := by
  obtain ⟨_, _, _, _, rfl⟩ := h.eq
  rfl

/-- Settling and then a new content of the assembler, one that 10_state.md R25 allows, keep the block running. -/
theorem settle_withCmdq_running {s : State} (h : s.running = true) {ws : List Word}
    (hw : cmdqOk s.cfg ws = true) : ((settle s).withCmdq ws).running = true :=
  withCmdq_running (settle_running h) (by rwa [(settle_frame h).1])

/-- Settles O42, by the inversion of a step: a word that joins the assembler leaves an unfinished command, a
TICK keeps the form of the state, and every other event changes only what a host operation may change. -/
theorem stepKeepsRunning : Obligations.StepKeepsRunning := by
  intro s t hr h
  have hr' (rest : List Input) : (s.withInputs rest).running = true := hr
  cases step_cases hr h with
  | idle _ ht =>
    subst ht
    exact ⟨hr, rfl⟩
  | tick rest _ ht => exact ht ▸ ⟨tick_running (hr' rest), tick_cfg (hr' rest)⟩
  | word w rest _ hd ht =>
    have hq := (decode_incomplete_iff s.cfg (s.cmdq ++ [w])).mp hd
    exact ht ▸ ⟨settle_withCmdq_running (hr' rest) hq, (settle_frame (hr' rest)).1⟩
  | command w rest i more _ _ hc ht =>
    obtain ⟨hr'', -, hch⟩ := exec_command_next hc ht
    exact ⟨hch.running hr'', hch.cfg_eq.trans (settle_frame (hr' rest)).1⟩
  | hostStep choice rest _ ht =>
    have hch := hostStep_change (hr' rest) choice
    exact ht ▸ ⟨hch.running (hr' rest), hch.cfg_eq⟩

/-! ## RESET begins a run -/

/-- Settles O35: RESET leaves the reset values, and these meet the typing invariant. -/
theorem resetBeginsRunning : Obligations.ResetBeginsRunning := by
  intro s hl hb
  obtain ⟨t, ht, hcfg, hv⟩ := exec_reset_of_not_begun hl hb
  exact ⟨t, ht, hv.running (hcfg ▸ hl), hcfg ▸ hv.mem, hv.trace⟩

/-- Settles O41: the reset state of an instance has the reset values. -/
theorem resetStateIsRunning : Obligations.ResetStateIsRunning := by
  have hall (c : Config) (hl : c.legal = true) : (State.resetOf c).running = true :=
    (resetOf_hasResetValues c).running hl
  exact ⟨hall Config.reference (by decide), hall⟩

/-- Settles O40: the reset values of the reference configuration, whose reset frames are zero. -/
theorem resetValues : Obligations.ResetValues := by
  have hv : HasResetValues State.reset := resetOf_hasResetValues Config.reference
  have hupd : State.reset.updO = 0 := by rw [State.updO, hv.upd]; rfl
  have hrow : State.reset.rowO = 0 := by rw [State.rowO, hv.row]; rfl
  exact ⟨congrArg Memory.cur hv.mem, congrArg Memory.pend hv.mem, hv.row, hv.upd, hv.latch, hv.srrst, hv.oe, hv.cmdq,
    hv.trace, hupd, hrow⟩

/-! ## The status outputs -/

@[simp] theorem updO_toNat (s : State) : s.updO.toNat = s.upd.toNat := BitVec.toNat_ofBool s.upd

/-- RW bits hold every row index (00_scope.md R5). -/
theorem rows_le_two_pow_rw (c : Config) : c.rows ≤ 2 ^ c.rw :=
  calc c.rows ≤ 2 ^ Nat.clog 2 c.rows := Nat.le_pow_clog (by decide) _
    _ ≤ 2 ^ c.rw := Nat.pow_le_pow_right (by decide) (Nat.le_max_right _ _)

theorem rowO_toNat {s : State} (h : s.row < s.cfg.rows) : s.rowO.toNat = s.row := by
  rw [State.rowO, BitVec.toNat_ofNat]
  exact Nat.mod_eq_of_lt (h.trans_le (rows_le_two_pow_rw s.cfg))

/-- Settles O33: a row index below ROWS is not truncated by RW bits. -/
theorem statusOutputsCopyState : Obligations.StatusOutputsCopyState := by
  intro s h
  obtain ⟨-, -, ht⟩ := (running_iff s).mp h
  obtain ⟨-, hrow, -⟩ := (typed_iff s).mp ht
  exact ⟨by rw [updO_toNat]; cases s.upd <;> rfl, rowO_toNat hrow⟩

/-! ## Ill-typed states -/

section IllTyped

variable {s : State} (hl : s.cfg.legal = true) (hb : s.begun = true) (ht : s.typed = false)
include hl hb ht

theorem whenRunning_of_illTyped (k : State → Result) : whenRunning s k = .refused .illegalStartState := by
  simp [whenRunning, hl, hb, ht]

theorem noEvent_of_illTyped : noEvent s = .refused .illegalStartState := by
  simp [noEvent, hl, hb, ht]

/-- The typing invariant is asked for before the operands are (log entry 11). -/
theorem hostOp_of_illTyped (check : Option Refusal) (k : State → State) :
    hostOp check s k = .refused .illegalStartState :=
  whenRunning_of_illTyped hl hb ht _

theorem exec_of_illTyped {i : Instr} (hi : i ≠ .reset) : exec i s = .refused .illegalStartState := by
  cases i with
  | reset => exact absurd rfl hi
  | tick => rw [exec, execTick, whenRunning_of_illTyped hl hb ht]
  | submit b => rw [exec, execSubmit, hostOp_of_illTyped hl hb ht]
  | shl k => rw [exec, execShl, hostOp_of_illTyped hl hb ht]
  | shr k => rw [exec, execShr, hostOp_of_illTyped hl hb ht]
  | publish => rw [exec, execPublish, hostOp_of_illTyped hl hb ht]
  | wrrow r v => rw [exec, execWrrow, hostOp_of_illTyped hl hb ht]

theorem receive_of_illTyped {e : Input} (he : e ≠ .rst) : receive e s = .refused .illegalStartState := by
  cases e with
  | rst => exact absurd rfl he
  | tick => rw [receive, exec_of_illTyped hl hb ht (by decide)]
  | word w => rw [receive, receiveWord, whenRunning_of_illTyped hl hb ht]
  | hostStep choice => rw [receive, receiveHostStep, whenRunning_of_illTyped hl hb ht]

theorem step_of_illTyped (hi : ∀ rest, s.inputs ≠ .rst :: rest) : step s = .refused .illegalStartState := by
  cases hs : s.inputs with
  | nil =>
    unfold step
    rw [hs]
    exact noEvent_of_illTyped hl hb ht
  | cons e rest =>
    have he : e ≠ .rst := fun h => hi rest (h ▸ hs)
    rw [step_of_inputs hs]
    exact receive_of_illTyped (s := s.withInputs rest) hl hb ht he

end IllTyped

/-- Settles O39: every guard but that of RESET asks for the typing invariant, and so does a step without an event. -/
theorem illTypedStateRefused : Obligations.IllTypedStateRefused :=
  fun _ hl hb ht => ⟨fun _ hi => exec_of_illTyped hl hb ht hi, step_of_illTyped hl hb ht⟩

end Sys2Proof.Machine
end

section
/-!
The memory rules (spec 20_memory.md): the byte order of a row word (R34), when the displayed frame changes (R45), the
order of the host's operations (R41), and the plain writes, which are idempotent (R39).
-/

namespace Sys2Proof.Machine

/-! ## The pixel bytes -/

/-- The pixel bytes stand after the row-select bytes (30_encoding.md R54). -/
theorem payload_getElem?_pixel {c : Config} {j : Nat} (hj : j < c.npix) (r : Nat) (w : Word) :
    (payload c r w)[c.nsel + j]? = some (pixelByte c w j) := by
  rw [payload, List.getElem?_append_right (by simp)]
  simp [hj]

theorem pixelByte_getLsbD (c : Config) (w : Word) (j : Nat) {i : Nat} (hi : i < 8) :
    (pixelByte c w j).getLsbD i = w.getLsbD (c.width - 8 - 8 * j + i) := by
  simp [pixelByte, hi]

/-- Settles O15: the byte is found past the NSEL row-select bytes, and its bits are those of the slice. -/
theorem pixelBytesMostSignificantFirst : Obligations.PixelBytesMostSignificantFirst :=
  fun c r w _ j hj =>
    ⟨pixelByte c w j, payload_getElem?_pixel hj r w, rfl, fun _ hi => pixelByte_getLsbD c w j hi⟩

/-! ## When the displayed frame changes -/

/-- A TICK adopts the pending frame exactly when it wraps and finds the flag set (41_frame_engine.md R76). -/
theorem tick_mem {s : State} (h : s.running = true) :
    (advance (display s)).mem = if wrapping s = true ∧ s.upd = true then s.mem.adopt else s.mem := by
  rw [tick_eq ((running_iff s).mp h).2.2]
  simp [wrapping]

/-- A step whose event is no tick leaves the displayed frame alone (41_frame_engine.md R76). -/
theorem step_cur_of_not_tick {s t : State} (hr : s.running = true) (h : step s = .next t)
    (hi : ∀ rest, s.inputs ≠ .tick :: rest) : t.mem.cur = s.mem.cur := by
  have hr' (rest : List Input) : (s.withInputs rest).running = true := hr
  cases step_cases hr h with
  | idle _ ht => rw [ht]
  | tick rest hin _ => exact absurd hin (hi rest)
  | word w rest _ _ ht => exact ht ▸ (settle_change (hr' rest)).cur
  | command w rest i more _ _ hc ht =>
    obtain ⟨-, -, hch⟩ := exec_command_next hc ht
    exact hch.cur.trans (settle_change (hr' rest)).cur
  | hostStep choice rest _ ht => exact ht ▸ (hostStep_change (hr' rest) choice).cur

/-- A step whose event is a tick adopts the pending frame exactly when the tick wraps and finds the flag set. -/
theorem step_mem_of_tick {s t : State} {rest : List Input} (hr : s.running = true) (h : step s = .next t)
    (hi : s.inputs = .tick :: rest) :
    t.mem = if wrapping s = true ∧ s.upd = true then s.mem.adopt else s.mem := by
  have hr' : (s.withInputs rest).running = true := hr
  rw [step_of_inputs hi, receive, exec, execTick, whenRunning_of_running hr'] at h
  exact Host.Outcome.next.inj h ▸ tick_mem hr'

/-- Settles O18: only a tick can change CUR, and a tick changes it only by the adoption. -/
theorem displayedFrameChangesOnlyAtAdoption : Obligations.DisplayedFrameChangesOnlyAtAdoption := by
  intro s t hr h hne
  by_cases htick : ∃ rest, s.inputs = .tick :: rest
  case neg => exact absurd (step_cur_of_not_tick hr h fun rest hi => htick ⟨rest, hi⟩) hne
  case pos =>
    obtain ⟨rest, hi⟩ := htick
    have hm := step_mem_of_tick hr h hi
    by_cases hadopt : wrapping s = true ∧ s.upd = true
    · rw [if_pos hadopt] at hm
      exact ⟨⟨rest, hi⟩, hadopt.1, hadopt.2, by rw [hm, Memory.adopt_cur]⟩
    · rw [if_neg hadopt] at hm
      exact absurd (congrArg Memory.cur hm) hne

/-! ## The order of the host's operations -/

theorem settle_fg {s : State} (h : s.running = true) : (settle s).fg = .idle := by
  obtain ⟨m, j, hs, -⟩ := settle_spec h
  rw [hs]

theorem settle_settle {s : State} (h : s.running = true) : settle (settle s) = settle s :=
  settle_of_idle (settle_fg h)

/-- A host operation ends the one in progress itself, so it finds the same state if that one has ended before it
(log entry 9). -/
theorem hostOp_settle {s : State} (h : s.running = true) (check : Option Refusal) (k : State → State) :
    hostOp check (settle s) k = hostOp check s k := by
  rw [hostOp, hostOp, whenRunning_of_running (settle_running h), whenRunning_of_running h, settle_settle h]

theorem exec_settle {s : State} {i : Instr} (hi : i.isCommand = true) (h : s.running = true) :
    exec i (settle s) = exec i s := by
  have hcfg := (settle_change h).cfg_eq
  cases i with
  | reset => cases hi
  | tick => cases hi
  | submit b => rw [exec, exec, execSubmit, execSubmit, hostOp_settle h, hcfg]
  | shl k => rw [exec, exec, execShl, execShl, hostOp_settle h, hcfg]
  | shr k => rw [exec, exec, execShr, execShr, hostOp_settle h, hcfg]
  | publish => rw [exec, exec, execPublish, execPublish, hostOp_settle h]
  | wrrow r v => rw [exec, exec, execWrrow, execWrrow, hostOp_settle h, hcfg]

/-- Settles O28: settling ends the operation in progress, and a second settling changes nothing. -/
theorem hostOperationsTakeEffectInOrder : Obligations.HostOperationsTakeEffectInOrder :=
  fun _ _ hi h => ⟨settle_running h, settle_fg h, (exec_settle hi h).symm⟩

/-! ## The commands of a guarded block, one equation each -/

theorem guardedRunning_iff (s : State) :
    guardedRunning s = true ↔ s.running = true ∧ s.cfg.submitAtomic = true := by
  simp [guardedRunning]

/-- In guarded mode a host operation that passes its check is its effect (70_reset_and_hazards.md R133). -/
theorem hostOp_of_guarded {s : State} (h : guardedRunning s = true) (k : State → State) :
    hostOp none s k = .next (k s) := by
  obtain ⟨hr, ha⟩ := (guardedRunning_iff s).mp h
  rw [hostOp_of_running hr, settle_of_guarded ((running_iff s).mp hr).2.2 ha]

theorem frameWide_of_guarded {s : State} (h : guardedRunning s = true) (whole : State → State) (fg : Foreground) :
    frameWide whole fg s = whole s :=
  if_pos ((guardedRunning_iff s).mp h).2

theorem exec_submit_of_guarded {s : State} (h : guardedRunning s = true) {b : Frame} (hb : s.cfg.frameOk b = true) :
    exec (.submit b) s = .next (setUpd (writeFrame b s)) := by
  rw [exec, execSubmit, (checkBitmap_none _ _).mpr hb, hostOp_of_guarded h, frameWide_of_guarded h]

theorem exec_shl_of_guarded {s : State} (h : guardedRunning s = true) (k : BitVec 8) :
    exec (.shl k) s = .next (shiftFrame k (shlWord s.cfg k) s) := by
  rw [exec, execShl, hostOp_of_guarded h, frameWide_of_guarded h]

theorem exec_shr_of_guarded {s : State} (h : guardedRunning s = true) (k : BitVec 8) :
    exec (.shr k) s = .next (shiftFrame k (shrWord k) s) := by
  rw [exec, execShr, hostOp_of_guarded h, frameWide_of_guarded h]

theorem exec_publish_of_guarded {s : State} (h : guardedRunning s = true) : exec .publish s = .next (setUpd s) := by
  rw [exec, execPublish, hostOp_of_guarded h]

theorem exec_wrrow_of_guarded {s : State} (h : guardedRunning s = true) {r : BitVec 8} {v : Word}
    (hr : s.cfg.rowOk r = true) (hv : Word.fits s.cfg.width v = true) :
    exec (.wrrow r v) s = .next (writeRow r.toNat v s) := by
  rw [exec, execWrrow, (checkRow_none _ _ _).mpr ⟨hr, hv⟩, hostOp_of_guarded h]

/-! ## The shift by zero -/

theorem shlWord_zero {c : Config} {w : Word} (hw : Word.fits c.width w = true) : shlWord c 0 w = w :=
  Word.trunc_of_fits hw

theorem shrWord_zero (w : Word) : shrWord 0 w = w := by
  simp [shrWord]

/-- No legal instance is so narrow that a shift by 0 is over-wide (00_scope.md R6). -/
theorem overwide_zero {c : Config} (hl : c.legal = true) : overwide c 0 = false := by
  obtain ⟨-, -, hw, -⟩ := Config.legal_bounds hl
  have : c.width ≠ 0 := by omega
  simp [overwide, this]

/-- A shift by 0 that keeps every row word changes nothing, whatever SHIFT_OVERWIDE is. -/
theorem shiftFrame_zero {s : State} (h : s.running = true) {f : Word → Word}
    (hf : ∀ w, Word.fits s.cfg.width w = true → f w = w) : shiftFrame 0 f s = s := by
  obtain ⟨hl, -, ht⟩ := (running_iff s).mp h
  obtain ⟨hm, -⟩ := (typed_iff s).mp ht
  obtain ⟨-, hfit⟩ := (Config.frameOk_iff _ _).mp ((Memory.wf_iff _ _).mp hm).2
  have hpend : (s.mem.pend.mapIdx fun i w => shiftedRow s.cfg 0 f (s.freeIdx + i) w) = s.mem.pend := by
    refine List.ext_getElem (by simp) fun i hi _ => ?_
    simp only [List.getElem_mapIdx, shiftedRow, overwide_zero hl]
    exact hf _ (hfit _ (List.getElem_mem _))
  have hfree : freeUsed s.cfg 0 s.mem.pend.length = 0 := by
    rw [freeUsed, overwide_zero hl]
    rfl
  rw [shiftFrame, hpend, hfree]
  rfl

theorem exec_shl_zero {s : State} (h : guardedRunning s = true) : exec (.shl 0) s = .next s := by
  obtain ⟨hr, -⟩ := (guardedRunning_iff s).mp h
  rw [exec_shl_of_guarded h, shiftFrame_zero hr fun _ => shlWord_zero]

theorem exec_shr_zero {s : State} (h : guardedRunning s = true) : exec (.shr 0) s = .next s := by
  obtain ⟨hr, -⟩ := (guardedRunning_iff s).mp h
  rw [exec_shr_of_guarded h, shiftFrame_zero hr fun w _ => shrWord_zero w]

/-! ## Idempotence -/

theorem setUpd_writeFrame_idem (b : Frame) (s : State) :
    setUpd (writeFrame b (setUpd (writeFrame b s))) = setUpd (writeFrame b s) := rfl

theorem setUpd_idem (s : State) : setUpd (setUpd s) = setUpd s := rfl

theorem writeRow_idem (i : Nat) (v : Word) (s : State) : writeRow i v (writeRow i v s) = writeRow i v s := by
  simp [writeRow, Memory.write]

theorem HostChange.guardedRunning {s t : State} (h : HostChange s t) (hg : guardedRunning s = true) :
    guardedRunning t = true := by
  rw [guardedRunning_iff] at *
  exact ⟨h.running hg.1, h.cfg_eq ▸ hg.2⟩

/-- A command is idempotent when its effect is: the first issue leaves a guarded block with the same parameters, where
the operands pass the same check. -/
theorem exec_again {s t : State} {i : Instr} {f : State → State} (hi : i.isCommand = true)
    (hg : guardedRunning s = true)
    (hexec : ∀ x, guardedRunning x = true → WellFormed x.cfg i = true → exec i x = .next (f x))
    (hidem : f (f s) = f s) (h : exec i s = .next t) : exec i t = .next t := by
  obtain ⟨-, hwf, hch⟩ := exec_command_next hi h
  have ht : t = f s := Host.Outcome.next.inj (h.symm.trans (hexec s hg hwf))
  calc exec i t = .next (f t) := hexec t (hch.guardedRunning hg) (hch.cfg_eq ▸ hwf)
    _ = .next t := by rw [ht, hidem]

/-- Settles O30: SUBMIT, PUBLISH and WRROW overwrite what they wrote before, and a shift by 0 changes nothing. -/
theorem plainWritesAreIdempotent : Obligations.PlainWritesAreIdempotent := by
  rintro s t i hg (⟨b, rfl⟩ | rfl | ⟨r, v, rfl⟩ | rfl | rfl) h
  case inl => exact exec_again rfl hg (fun _ hx hb => exec_submit_of_guarded hx hb) (setUpd_writeFrame_idem b s) h
  case inr.inl => exact exec_again rfl hg (fun _ hx _ => exec_publish_of_guarded hx) (setUpd_idem s) h
  case inr.inr.inl =>
    refine exec_again rfl hg (fun x hx hwf => ?_) (writeRow_idem r.toNat v s) h
    obtain ⟨hr, hv⟩ := Bool.and_eq_true_iff.mp hwf
    exact exec_wrrow_of_guarded hx hr hv
  case inr.inr.inr.inl => exact exec_again rfl hg (fun _ hx _ => exec_shl_zero hx) rfl h
  case inr.inr.inr.inr => exact exec_again rfl hg (fun _ hx _ => exec_shr_zero hx) rfl h

end Sys2Proof.Machine
end

section
/-!
The command encoding (spec 30_encoding.md): what words a command is made of, the decoder as the inverse of the encoder
(R47 to R52, R58), the opcode map (R49) and the syntax table (R59).
-/

namespace Sys2Proof

/-! ## The words of a command -/

/-- The header, with these operand words, makes the operation: as many words as the header takes (30_encoding.md R49),
each of at most WIDTH bits (R48), and operands in range (R58). -/
structure Header.Makes (c : Config) (hd : Header) (args : List Word) (i : Instr) : Prop where
  length : args.length = hd.operandWords c
  fits : ∀ v ∈ args, Word.fits c.width v = true
  build : hd.build c args = .ok i

/-- A header and operand words make a well-formed command, whose words they are (30_encoding.md R49, R58). -/
theorem Header.Makes.command {c : Config} {hd : Header} {args : List Word} {i : Instr} (m : hd.Makes c args i) :
    i.isCommand = true ∧ WellFormed c i = true ∧ encode i = headerWord hd.fields :: args := by
  obtain ⟨hlen, hfit, hb⟩ := m
  cases hd with
  | submit =>
    cases hb
    exact ⟨rfl, (Config.frameOk_iff c args).mpr ⟨hlen, hfit⟩, rfl⟩
  | shl k =>
    cases hb
    cases List.eq_nil_of_length_eq_zero hlen
    exact ⟨rfl, rfl, rfl⟩
  | shr k =>
    cases hb
    cases List.eq_nil_of_length_eq_zero hlen
    exact ⟨rfl, rfl, rfl⟩
  | publish =>
    cases hb
    cases List.eq_nil_of_length_eq_zero hlen
    exact ⟨rfl, rfl, rfl⟩
  | wrrow r =>
    obtain ⟨v, rfl⟩ := List.length_eq_one_iff.mp hlen
    rw [Header.build] at hb
    split at hb
    case isFalse => cases hb
    case isTrue hrow =>
      cases hb
      exact ⟨rfl, Bool.and_eq_true_iff.mpr ⟨hrow, hfit v (List.mem_singleton_self v)⟩, rfl⟩

/-- Every well-formed command is made by a header and the words after it (30_encoding.md R49, R58). -/
theorem exists_makes {c : Config} {i : Instr} (hi : i.isCommand = true) (hwf : WellFormed c i = true) :
    ∃ (hd : Header) (args : List Word), hd.Makes c args i ∧ encode i = headerWord hd.fields :: args := by
  have hnil : ∀ v ∈ ([] : List Word), Word.fits c.width v = true := by simp
  cases i with
  | reset => cases hi
  | tick => cases hi
  | submit b =>
    obtain ⟨hlen, hfit⟩ := (Config.frameOk_iff c b).mp hwf
    exact ⟨.submit, b, ⟨hlen, hfit, rfl⟩, rfl⟩
  | shl k => exact ⟨.shl k, [], ⟨rfl, hnil, rfl⟩, rfl⟩
  | shr k => exact ⟨.shr k, [], ⟨rfl, hnil, rfl⟩, rfl⟩
  | publish => exact ⟨.publish, [], ⟨rfl, hnil, rfl⟩, rfl⟩
  | wrrow r v =>
    obtain ⟨hrow, hv⟩ := Bool.and_eq_true_iff.mp hwf
    exact ⟨.wrrow r, [v], ⟨rfl, by simpa using hv, if_pos hrow⟩, rfl⟩

/-! ## The decoder -/

/-- The decoder takes exactly the words a header asks for (30_encoding.md R50, R51). -/
theorem Header.Makes.decode_eq {c : Config} {hd : Header} {args : List Word} {i : Instr} (m : hd.Makes c args i)
    (rest : List Word) : decode c (headerWord hd.fields :: (args ++ rest)) = .ok (i, rest) := by
  have hle : hd.operandWords c ≤ (args ++ rest).length := by simp [← m.length]
  have hall : args.all (Word.fits c.width) = true := List.all_eq_true.mpr m.fits
  rw [decode_cons (decodeHeader_headerWord hd) hle, ← m.length, List.take_left, List.drop_left, hall]
  simp [m.build]

/-- What the decoder accepts begins with a header and operand words that make its answer (30_encoding.md R50). -/
theorem exists_makes_of_decode {c : Config} {ws rest : List Word} {i : Instr} (h : decode c ws = .ok (i, rest)) :
    ∃ (hd : Header) (args : List Word), hd.Makes c args i ∧ ws = headerWord hd.fields :: (args ++ rest) := by
  cases ws with
  | nil => cases h
  | cons w ops =>
    cases hw : decodeHeader w with
    | none => simp [decode, hw] at h
    | some hd =>
      by_cases hlen : hd.operandWords c ≤ ops.length
      case neg => simp [decode, hw, Nat.lt_of_not_le hlen] at h
      case pos =>
        rw [decode_cons hw hlen] at h
        split at h
        case isTrue => cases h
        case isFalse hfit =>
          split at h
          case h_2 => cases h
          case h_1 i' hb =>
            cases h
            refine ⟨hd, ops.take (hd.operandWords c), ⟨List.length_take_of_le hlen, ?_, hb⟩, ?_⟩
            · exact List.all_eq_true.mp (by simpa only [Bool.not_eq_true', Bool.not_eq_false] using hfit)
            · rw [List.take_append_drop, ← headerWord_of_decodeHeader hw]

/-- A stream of words shorter than its command is no command yet (30_encoding.md R50). -/
theorem decode_of_prefix {c : Config} {i : Instr} (hi : i.isCommand = true) (hwf : WellFormed c i = true)
    {pre post : List Word} (h : pre ++ post = encode i) (hpost : post ≠ []) : decode c pre = .error .incomplete := by
  obtain ⟨hd, args, m, he⟩ := exists_makes hi hwf
  cases pre with
  | nil => rfl
  | cons w ops =>
    rw [he, List.cons_append] at h
    obtain ⟨rfl, rfl⟩ := List.cons.inj h
    have hlt : ops.length < hd.operandWords c := by
      rw [← m.length, List.length_append]
      exact Nat.lt_add_of_pos_right (List.length_pos_iff.mpr hpost)
    rw [Machine.decode_incomplete_iff, Machine.cmdqOk, decodeHeader_headerWord]
    exact decide_eq_true hlt

/-- Settles O1: the header word stands for its header alone, and its operand words are counted off. -/
theorem decodeReadsBackEncode : Obligations.DecodeReadsBackEncode := by
  intro c i rest hi hwf
  obtain ⟨hd, args, m, he⟩ := exists_makes hi hwf
  rw [he, List.cons_append, m.decode_eq]

/-- Settles O2: the header and operand words that the decoder found make the command. -/
theorem acceptedWordsAreTheEncoding : Obligations.AcceptedWordsAreTheEncoding := by
  intro c ws rest i h
  obtain ⟨hd, args, m, rfl⟩ := exists_makes_of_decode h
  obtain ⟨hi, hwf, he⟩ := m.command
  exact ⟨hi, hwf, by rw [he, List.cons_append]⟩

/-- Words that the encoder writes for a command decode to it. -/
theorem decode_of_encode_eq {c : Config} {i : Instr} {ws : List Word} (hi : i.isCommand = true)
    (hwf : WellFormed c i = true) (he : encode i = ws) : decode c ws = .ok (i, []) := by
  have h := decodeReadsBackEncode c i [] hi hwf
  rwa [List.append_nil, he] at h

/-- Settles O5: each word sequence is what the encoder writes for its command. -/
theorem writtenWordsDecode : Obligations.WrittenWordsDecode :=
  ⟨decode_of_encode_eq rfl (by decide) (by decide), decode_of_encode_eq rfl (by decide) (by decide),
    decode_of_encode_eq rfl (by decide) (by decide), decode_of_encode_eq rfl (by decide) (by decide),
    decode_of_encode_eq rfl (by decide) (by decide)⟩

/-! ## The opcode map -/

theorem headerWord_inj {f g : HeaderFields} : headerWord f = headerWord g ↔ f = g :=
  ⟨fun h => by rw [← headerFields_headerWord f, h, headerFields_headerWord], fun h => h ▸ rfl⟩

/-- A mask applies to a header word field by field (30_encoding.md R47). -/
theorem headerWord_and (f m : HeaderFields) :
    headerWord f &&& headerWord m =
      headerWord ⟨f.opc &&& m.opc, f.rsv &&& m.rsv, f.rowf &&& m.rowf, f.amt &&& m.amt⟩ := by
  simp only [headerWord, ← BitVec.and_append]

/-- A header word meets a mask and match exactly when each of its fields meets its own. -/
theorem and_headerWord_eq_iff (h : Word) (m v : HeaderFields) :
    h &&& headerWord m = headerWord v ↔
      (headerFields h).opc &&& m.opc = v.opc ∧ (headerFields h).rsv &&& m.rsv = v.rsv ∧
      (headerFields h).rowf &&& m.rowf = v.rowf ∧ (headerFields h).amt &&& m.amt = v.amt := by
  calc h &&& headerWord m = headerWord v
    _ ↔ headerWord (headerFields h) &&& headerWord m = headerWord v := by rw [headerWord_headerFields]
    _ ↔ _ := by rw [headerWord_and, headerWord_inj, HeaderFields.mk.injEq]

/-- A mask byte of ones, as the mask literals write it. -/
theorem and_ones (x : BitVec 8) : x &&& 0xFF = x := BitVec.and_allOnes

/-- A mask byte of zeros, as the mask literals write it. -/
theorem and_zeros (x : BitVec 8) : x &&& 0 = 0 := BitVec.and_zero

/-- A header word's fields, all four fixed: the mask of SUBMIT and PUBLISH. -/
theorem headerFields_eq_iff_mask_all (h : Word) (opc rsv rowf amt : BitVec 8) :
    headerFields h = ⟨opc, rsv, rowf, amt⟩ ↔ h &&& 0xFFFFFFFF = headerWord ⟨opc, rsv, rowf, amt⟩ := by
  rw [show (0xFFFFFFFF : Word) = headerWord ⟨0xFF, 0xFF, 0xFF, 0xFF⟩ by decide, and_headerWord_eq_iff]
  simp only [and_ones, headerFields, HeaderFields.mk.injEq]

/-- All fixed but AMT, which is the operand: the mask of SHL and SHR. -/
theorem headerFields_eq_iff_mask_amt (h : Word) (opc rsv rowf amt : BitVec 8) :
    headerFields h = ⟨opc, rsv, rowf, amt⟩ ↔
      h &&& 0xFFFFFF00 = headerWord ⟨opc, rsv, rowf, 0⟩ ∧ amt = h.extractLsb' 0 8 := by
  rw [show (0xFFFFFF00 : Word) = headerWord ⟨0xFF, 0xFF, 0xFF, 0⟩ by decide, and_headerWord_eq_iff]
  simp only [and_ones, and_zeros, headerFields, HeaderFields.mk.injEq, and_true, and_assoc, eq_comm (a := amt)]

/-- All fixed but ROWF, which is the operand: the mask of WRROW. -/
theorem headerFields_eq_iff_mask_rowf (h : Word) (opc rsv rowf amt : BitVec 8) :
    headerFields h = ⟨opc, rsv, rowf, amt⟩ ↔
      h &&& 0xFFFF00FF = headerWord ⟨opc, rsv, 0, amt⟩ ∧ rowf = h.extractLsb' 8 8 := by
  rw [show (0xFFFF00FF : Word) = headerWord ⟨0xFF, 0xFF, 0, 0xFF⟩ by decide, and_headerWord_eq_iff]
  simp only [and_ones, and_zeros, headerFields, HeaderFields.mk.injEq, true_and, eq_comm (a := rowf)]
  tauto

section Rows

variable (h : Word)

theorem decodeHeader_submit_iff : decodeHeader h = some .submit ↔ h &&& 0xFFFFFFFF = 0x01000000 :=
  (decodeHeader_iff h _).trans (headerFields_eq_iff_mask_all h 1 0 0 0)

theorem decodeHeader_shl_iff (k : BitVec 8) :
    decodeHeader h = some (.shl k) ↔ h &&& 0xFFFFFF00 = 0x02000000 ∧ k = h.extractLsb' 0 8 :=
  (decodeHeader_iff h _).trans (headerFields_eq_iff_mask_amt h 2 0 0 k)

theorem decodeHeader_shr_iff (k : BitVec 8) :
    decodeHeader h = some (.shr k) ↔ h &&& 0xFFFFFF00 = 0x03000000 ∧ k = h.extractLsb' 0 8 :=
  (decodeHeader_iff h _).trans (headerFields_eq_iff_mask_amt h 3 0 0 k)

theorem decodeHeader_publish_iff : decodeHeader h = some .publish ↔ h &&& 0xFFFFFFFF = 0x04000000 :=
  (decodeHeader_iff h _).trans (headerFields_eq_iff_mask_all h 4 0 0 0)

theorem decodeHeader_wrrow_iff (r : BitVec 8) :
    decodeHeader h = some (.wrrow r) ↔ h &&& 0xFFFF00FF = 0x05000000 ∧ r = h.extractLsb' 8 8 :=
  (decodeHeader_iff h _).trans (headerFields_eq_iff_mask_rowf h 5 0 r 0)

/-- A header word is legal exactly when some row of the opcode map selects it (30_encoding.md R49, R52). -/
theorem exists_decodeHeader_iff :
    (∃ hd, decodeHeader h = some hd) ↔ ∃ row ∈ opcodeMap, row.selects h = true := by
  simp only [opcodeMap, OpcodeRow.selects, List.exists_mem_cons_iff, beq_iff_eq]
  constructor
  · rintro ⟨hd, e⟩
    cases hd with
    | submit => exact .inl ((decodeHeader_submit_iff h).mp e)
    | shl k => exact .inr (.inl ((decodeHeader_shl_iff h k).mp e).1)
    | shr k => exact .inr (.inr (.inl ((decodeHeader_shr_iff h k).mp e).1))
    | publish => exact .inr (.inr (.inr (.inl ((decodeHeader_publish_iff h).mp e))))
    | wrrow r => exact .inr (.inr (.inr (.inr (.inl ((decodeHeader_wrrow_iff h r).mp e).1))))
  · rintro (e | e | e | e | e | ⟨_, hmem, _⟩)
    · exact ⟨_, (decodeHeader_submit_iff h).mpr e⟩
    · exact ⟨_, (decodeHeader_shl_iff h _).mpr ⟨e, rfl⟩⟩
    · exact ⟨_, (decodeHeader_shr_iff h _).mpr ⟨e, rfl⟩⟩
    · exact ⟨_, (decodeHeader_publish_iff h).mpr e⟩
    · exact ⟨_, (decodeHeader_wrrow_iff h _).mpr ⟨e, rfl⟩⟩
    · cases hmem

theorem decodeHeader_none_iff : decodeHeader h = none ↔ ∀ row ∈ opcodeMap, row.selects h = false := by
  have hnot := not_congr (exists_decodeHeader_iff h)
  simpa [Option.eq_none_iff_forall_ne_some] using hnot

end Rows

/-- Settles O3: a header's fields are fixed by its mask, and the five headers are the five rows of the map. -/
theorem headerMatchesOpcodeMap : Obligations.HeaderMatchesOpcodeMap := fun h _ k r =>
  ⟨decodeHeader_submit_iff h, decodeHeader_shl_iff h k, decodeHeader_shr_iff h k, decodeHeader_publish_iff h,
    decodeHeader_wrrow_iff h r, decodeHeader_none_iff h, rfl, rfl, rfl, rfl, rfl⟩

/-! ## The syntax table -/

theorem append_byte_toNat {n : Nat} (x : BitVec n) (b : BitVec 8) :
    (x ++ b).toNat = x.toNat * 2 ^ 8 + b.toNat := by
  rw [BitVec.toNat_append, ← Nat.shiftLeft_add_eq_or_of_lt b.isLt, Nat.shiftLeft_eq]

/-- A header word as a number: its fields side by side (30_encoding.md R47). -/
theorem headerWord_toNat (f : HeaderFields) :
    (headerWord f).toNat =
      ((f.opc.toNat * 2 ^ 8 + f.rsv.toNat) * 2 ^ 8 + f.rowf.toNat) * 2 ^ 8 + f.amt.toNat := by
  simp only [headerWord, append_byte_toNat]

/-- A header that carries an amount is the header without it plus the amount (30_encoding.md R59). -/
theorem headerWord_amt (opc amt : BitVec 8) :
    headerWord ⟨opc, 0, 0, amt⟩ = headerWord ⟨opc, 0, 0, 0⟩ + amt.setWidth 32 := by
  refine BitVec.eq_of_toNat_eq ?_
  simp only [BitVec.toNat_add, headerWord_toNat, BitVec.toNat_setWidth, BitVec.ofNat_eq_ofNat,
    BitVec.toNat_ofNat]
  omega

/-- A header that carries a row number is the header without it plus the number shifted to its field
(30_encoding.md R59). -/
theorem headerWord_rowf (opc rowf : BitVec 8) :
    headerWord ⟨opc, 0, rowf, 0⟩ = headerWord ⟨opc, 0, 0, 0⟩ + (rowf.setWidth 32 <<< 8) := by
  refine BitVec.eq_of_toNat_eq ?_
  simp only [BitVec.toNat_add, BitVec.toNat_shiftLeft, headerWord_toNat, BitVec.toNat_setWidth, Nat.shiftLeft_eq,
    BitVec.ofNat_eq_ofNat, BitVec.toNat_ofNat]
  omega

/-- A command is delivered by its words (30_encoding.md R59). -/
theorem events_of_isCommand {i : Instr} (hi : i.isCommand = true) : i.events = (encode i).map .word := by
  cases i with
  | reset => cases hi
  | tick => cases hi
  | _ => rfl

/-- Settles O4: each header word by its fields, as a sum. -/
theorem operationWordsBySyntaxTable : Obligations.OperationWordsBySyntaxTable :=
  ⟨rfl, rfl, fun _ => rfl, fun k => congrArg (fun h => [Input.word h]) (headerWord_amt 2 k),
    fun k => congrArg (fun h => [Input.word h]) (headerWord_amt 3 k), rfl,
    fun r v => congrArg (fun h => [Input.word h, .word v]) (headerWord_rowf 5 r)⟩

end Sys2Proof
end

section
/-!
The command port (spec 30_encoding.md R50, R52, R53): a step on each kind of event, the words of a command that join the
assembler without effect, and the command that commits at its last word.
-/

namespace Sys2Proof.Machine

/-! ## A step on each kind of event -/

/-- Settles O11: a step hands a pin event to its operation. -/
theorem stepRunsPinEvents : Obligations.StepRunsPinEvents :=
  fun _ _ => ⟨step_of_inputs, step_of_inputs, step_of_no_inputs⟩

/-- Settles O10: the step is the word's arrival, and the decoder answers a command. -/
theorem stepRunsDecodedCommand : Obligations.StepRunsDecodedCommand := by
  intro s w rest i more hr hi hd
  rw [step_of_inputs hi]
  exact receiveWord_of_ok (s := s.withInputs rest) hr hd

/-- Settles O7: the word's arrival ends no operation, for there is none, and the decoder waits. -/
theorem partialCommandHasNoEffect : Obligations.PartialCommandHasNoEffect := by
  intro s w rest hr hfg hi hd
  rw [step_of_inputs hi, receive, receiveWord_of_incomplete (s := s.withInputs rest) hr hd,
    settle_of_idle (s := s.withInputs rest) hfg, withInputs_cmdq]

/-- A word after which the decoder refuses is refused by the same name (60_exceptions.md R106). -/
theorem step_of_decode_error {s : State} {w : Word} {rest : List Input} {e : DecodeError} {r : Refusal}
    (hr : s.running = true) (hi : s.inputs = .word w :: rest) (hd : decode s.cfg (s.cmdq ++ [w]) = .error e)
    (he : refusalOf e = some r) : step s = .refused r := by
  rw [step_of_inputs hi]
  exact receiveWord_of_error (s := s.withInputs rest) hr hd he

/-! ## Refused commands -/

/-- No legal header has an illegal field (30_encoding.md R52). -/
theorem decodeHeader_of_illegal_field {w : Word}
    (h : (headerFields w).opc = 0 ∨ 6 ≤ (headerFields w).opc.toNat ∨ (headerFields w).rsv ≠ 0 ∨
      ((headerFields w).rowf ≠ 0 ∧ (headerFields w).opc ≠ 5) ∨
      ((headerFields w).amt ≠ 0 ∧ (headerFields w).opc ≠ 2 ∧ (headerFields w).opc ≠ 3)) : decodeHeader w = none := by
  refine Option.eq_none_iff_forall_ne_some.mpr fun hd e => ?_
  rw [(decodeHeader_iff w hd).mp e] at h
  cases hd <;> simp [Header.fields] at h

/-- A whole command with an operand word of more than WIDTH bits is not decoded (30_encoding.md R48). -/
theorem decode_of_wide_operand {c : Config} {h : Word} {ops : List Word} {hd : Header}
    (e : decodeHeader h = some hd) (hlen : ops.length = hd.operandWords c) {v : Word} (hv : v ∈ ops)
    (hwide : 2 ^ c.width ≤ v.toNat) : decode c (h :: ops) = .error .operandTooWide := by
  have hfit : ops.all (Word.fits c.width) = false := by
    refine List.all_eq_false.mpr ⟨v, hv, ?_⟩
    rw [Word.fits_iff]
    omega
  rw [decode_cons e hlen.ge, ← hlen, List.take_length, hfit]
  rfl

/-- A whole WRROW with a row number at or above ROWS is not decoded (20_memory.md R37). -/
theorem decode_of_row_out_of_range {c : Config} {h : Word} {ops : List Word} {r : BitVec 8}
    (e : decodeHeader h = some (.wrrow r)) (hlen : ops.length = (Header.wrrow r).operandWords c)
    (hfit : ∀ v ∈ ops, v.toNat < 2 ^ c.width) (hrow : c.rows ≤ r.toNat) :
    decode c (h :: ops) = .error .rowOutOfRange := by
  have hall : ops.all (Word.fits c.width) = true :=
    List.all_eq_true.mpr fun v hv => (Word.fits_iff _ _).mpr (hfit v hv)
  have hrowOk : c.rowOk r = false := decide_eq_false (by omega)
  rw [decode_cons e hlen.ge, ← hlen, List.take_length, hall, Header.build, hrowOk]
  rfl

/-- Settles O6: the decoder's answer in each case, and the refusal of that name. -/
theorem illegalCommandsRefused : Obligations.IllegalCommandsRefused := by
  intro s w rest hr hi
  refine ⟨fun hq hbad => ?_, fun h ops hd hq e hlen => ?_⟩
  · refine step_of_decode_error hr hi (e := .illegalCommand) ?_ rfl
    simp [hq, decode, decodeHeader_of_illegal_field hbad]
  · have hlen' : (ops ++ [w]).length = hd.operandWords s.cfg := by simpa using hlen
    refine ⟨fun ⟨v, hv, hwide⟩ => ?_, fun hfit r hwr hrow => ?_⟩
    · refine step_of_decode_error hr hi (e := .operandTooWide) ?_ rfl
      rw [hq]
      exact decode_of_wide_operand e hlen' hv hwide
    · subst hwr
      refine step_of_decode_error hr hi (e := .rowOutOfRange) ?_ rfl
      rw [hq]
      exact decode_of_row_out_of_range e hlen' hfit hrow

/-! ## A command, word by word -/

theorem quiet_iff (s : State) : quiet s = true ↔ s.running = true ∧ s.fg = .idle ∧ s.cmdq = [] := by
  simp [quiet, and_assoc]

theorem run_one (s : State) : run 1 s = step s := by
  rw [run]
  cases step s <;> rfl

/-- The block after a word that leaves the command incomplete is running (10_state.md R25). -/
theorem withCmdq_running_of_incomplete {s : State} (hr : s.running = true) {ws : List Word}
    (hd : decode s.cfg ws = .error .incomplete) : (s.withCmdq ws).running = true :=
  withCmdq_running hr ((decode_incomplete_iff _ _).mp hd)

/-- The last words of a command, from any point within it: all but the last join the assembler, and the last one commits
the operation (30_encoding.md R50). -/
theorem run_words {i : Instr} (hi : i.isCommand = true) {rest : List Input} {ws : List Word} (hne : ws ≠ [])
    {s : State} (hr : s.running = true) (hfg : s.fg = .idle) (hwf : WellFormed s.cfg i = true)
    (hq : s.cmdq ++ ws = encode i) (hin : s.inputs = ws.map .word ++ rest) :
    run ws.length s = exec i ((s.withInputs rest).withCmdq []) := by
  induction ws generalizing s with
  | nil => exact absurd rfl hne
  | cons w ws ih =>
    cases ws with
    | nil =>
      have hd : decode s.cfg (s.cmdq ++ [w]) = .ok (i, []) := hq ▸ decode_of_encode_eq hi hwf rfl
      calc run 1 s = step s := run_one s
        _ = exec i ((settle (s.withInputs rest)).withCmdq []) := stepRunsDecodedCommand s w rest i [] hr hin hd
        _ = exec i ((s.withInputs rest).withCmdq []) := by rw [settle_of_idle (s := s.withInputs rest) hfg]
    | cons w' ws =>
      have hq' : (s.cmdq ++ [w]) ++ (w' :: ws) = encode i := by rw [← hq, ← List.append_cons]
      have hd := decode_of_prefix hi hwf hq' (List.cons_ne_nil w' ws)
      have hstep := partialCommandHasNoEffect s w _ hr hfg hin hd
      rw [List.length_cons, run_succ_of_next hstep]
      exact ih (List.cons_ne_nil w' ws)
        (withCmdq_running_of_incomplete (s := s.withInputs ((w' :: ws).map .word ++ rest)) hr hd) hfg hwf hq' rfl

/-- Settles O8: the words of the command, from an empty assembler. -/
theorem commandCommitsAtLastWord : Obligations.CommandCommitsAtLastWord := by
  intro s i rest hquiet hi hwf hin
  obtain ⟨hr, hfg, hq⟩ := (quiet_iff s).mp hquiet
  obtain ⟨hd, args, -, he⟩ := exists_makes hi hwf
  have hne : encode i ≠ [] := he ▸ List.cons_ne_nil _ _
  have hself : (s.withInputs rest).withCmdq [] = s.withInputs rest := by
    rw [← hq]
    rfl
  rw [events_of_isCommand hi] at hin ⊢
  rw [List.length_map, run_words hi hne hr hfg hwf (by rw [hq, List.nil_append]) hin, hself]

/-! ## A TICK between the words -/

section Tick

variable {s : State} (hr : s.running = true)
include hr

/-- TICK does not look at the events to come (41_frame_engine.md R73). -/
theorem tick_withInputs (ins : List Input) :
    advance (display (s.withInputs ins)) = (advance (display s)).withInputs ins := by
  obtain ⟨-, -, ht⟩ := (running_iff s).mp hr
  rw [tick_eq (s := s.withInputs ins) ht, tick_eq ht]
  rfl

theorem step_withInputs_tick (rest : List Input) :
    step (s.withInputs (.tick :: rest)) = .next ((advance (display s)).withInputs rest) := by
  have htick := whenRunning_of_running (s := s.withInputs rest) hr fun s => .next (advance (display s))
  rw [tick_withInputs hr] at htick
  exact htick

/-- TICK does not look at the assembler (30_encoding.md R50). -/
theorem tick_withCmdq {ws : List Word} (hw : (s.withCmdq ws).running = true) :
    advance (display (s.withCmdq ws)) = (advance (display s)).withCmdq ws := by
  rw [tick_eq ((running_iff _).mp hw).2.2, tick_eq ((running_iff s).mp hr).2.2]
  rfl

theorem tick_cmdq : (advance (display s)).cmdq = s.cmdq := by
  rw [tick_eq ((running_iff s).mp hr).2.2]

theorem tick_fg : (advance (display s)).fg = s.fg := by
  rw [tick_eq ((running_iff s).mp hr).2.2]

variable {w : Word} {rest : List Input} (hfg : s.fg = .idle)
  (hd : decode s.cfg (s.cmdq ++ [w]) = .error .incomplete)
include hfg hd

/-- A word that waits, then a TICK: the TICK, and the word in the assembler. -/
theorem run_word_tick : run 2 (s.withInputs (.word w :: .tick :: rest)) =
    .next (((advance (display s)).withInputs rest).withCmdq (s.cmdq ++ [w])) := by
  have hq : (s.withCmdq (s.cmdq ++ [w])).running = true := withCmdq_running_of_incomplete hr hd
  have hword : step (s.withInputs (.word w :: .tick :: rest)) =
      .next ((s.withCmdq (s.cmdq ++ [w])).withInputs (.tick :: rest)) :=
    partialCommandHasNoEffect (s.withInputs _) w _ hr hfg rfl hd
  rw [run_succ_of_next hword, run_one, step_withInputs_tick hq, tick_withCmdq hr hq]
  rfl

/-- A TICK, then a word that waits: the TICK, and the word in the assembler. -/
theorem run_tick_word : run 2 (s.withInputs (.tick :: .word w :: rest)) =
    .next (((advance (display s)).withInputs rest).withCmdq (s.cmdq ++ [w])) := by
  have hd' : decode (advance (display s)).cfg ((advance (display s)).cmdq ++ [w]) = .error .incomplete := by
    rwa [tick_cfg hr, tick_cmdq hr]
  have hword := partialCommandHasNoEffect ((advance (display s)).withInputs (.word w :: rest)) w rest
    (tick_running hr) ((tick_fg hr).trans hfg) rfl hd'
  rw [run_succ_of_next (step_withInputs_tick hr _), run_one, hword, withInputs_withInputs, withInputs_cmdq,
    tick_cmdq hr]

end Tick

/-- Settles O9: both orders leave what the TICK leaves, with the word in the assembler. -/
theorem tickBetweenWordsSeesNoCommand : Obligations.TickBetweenWordsSeesNoCommand :=
  fun _ _ _ hr hfg hd => (run_word_tick hr hfg hd).trans (run_tick_word hr hfg hd).symm

end Sys2Proof.Machine
end

section
/-!
The row lines of a payload (spec 30_encoding.md R54, R55, R57): the row-select byte of each bank, where it stands in
either bank order, and the one bit that is set among them.
-/

namespace Sys2Proof.Machine

/-! ## The row-select byte of a bank -/

theorem onehot8_getLsbD (j : Nat) {i : Nat} (hi : i < 8) : (onehot8 j).getLsbD i = decide (j = i) := by
  rw [onehot8, Nat.one_shiftLeft, BitVec.getLsbD_ofNat, Nat.testBit_two_pow]
  simp [hi]

/-- Bit i of bank b is the row line of row 8b + i (30_encoding.md R55). -/
theorem rowSelect_getLsbD (b r : Nat) {i : Nat} (hi : i < 8) :
    (rowSelect b r).getLsbD i = decide (8 * b + i = r) := by
  rw [rowSelect]
  split
  case isTrue hb =>
    rw [onehot8_getLsbD _ hi, decide_eq_decide]
    omega
  case isFalse hb =>
    have hne : 8 * b + i ≠ r := by omega
    simp [hne]

theorem byteOnes_onehot8 {j : Nat} (hj : j < 8) : byteOnes (onehot8 j) = 1 := by
  have h : ∀ j < 8, byteOnes (onehot8 j) = 1 := by decide
  exact h j hj

theorem byteOnes_zero : byteOnes 0 = 0 := by decide

theorem byteOnes_rowSelect (b r : Nat) : byteOnes (rowSelect b r) = if b = r / 8 then 1 else 0 := by
  rw [rowSelect]
  split
  · exact byteOnes_onehot8 (Nat.mod_lt r (by decide))
  · exact byteOnes_zero

/-! ## The row-select bytes of a payload -/

/-- The byte of bank b stands at its position, in either bank order (30_encoding.md R54, 92_eei_decisions.md D9). -/
theorem rowSelectBytes_getElem? {c : Config} {b : Nat} (hb : b < c.nsel) (r : Nat) :
    (rowSelectBytes c r)[bankPosition c b]? = some (rowSelect b r) := by
  rw [rowSelectBytes, bankPosition]
  cases c.bankAFirst
  case true => simp [hb]
  case false =>
    have hpos : c.nsel - 1 - b < c.nsel := by omega
    have hback : c.nsel - 1 - (c.nsel - 1 - b) = b := by omega
    simp [hpos, hback]

theorem bankPosition_lt {c : Config} {b : Nat} (hb : b < c.nsel) : bankPosition c b < c.nsel := by
  rw [bankPosition]
  split <;> omega

/-- The row-select bytes come first in a payload (30_encoding.md R54). -/
theorem payload_getElem?_bank {c : Config} {b : Nat} (hb : b < c.nsel) (r : Nat) (w : Word) :
    (payload c r w)[bankPosition c b]? = some (rowSelect b r) := by
  have hlt : bankPosition c b < (rowSelectBytes c r).length := by
    rw [rowSelectBytes_length]
    exact bankPosition_lt hb
  rw [payload, List.getElem?_append_left hlt, rowSelectBytes_getElem? hb]

theorem rowLines_payload (c : Config) (r : Nat) (w : Word) : rowLines c (payload c r w) = rowSelectBytes c r := by
  rw [rowLines, payload]
  exact List.take_left' (rowSelectBytes_length c r)

/-! ## The one bit that is set -/

theorem setBits_reverse (bs : List Byte) : setBits bs.reverse = setBits bs := by
  rw [setBits, setBits, List.map_reverse, List.sum_reverse]

/-- Only the bank of the row has a bit set, and it has one (30_encoding.md R57). -/
theorem setBits_banks {n r : Nat} (h : r / 8 < n) : setBits ((List.range n).map fun b => rowSelect b r) = 1 := by
  rw [setBits, List.map_map]
  have hother (b : Nat) (hb : b ≠ r / 8) (_ : b ∈ List.range n) : (byteOnes ∘ fun b => rowSelect b r) b = 0 := by
    rw [Function.comp_apply, byteOnes_rowSelect, if_neg hb]
  rw [List.sum_map_eq_nsmul_single (r / 8) _ hother, Function.comp_apply, byteOnes_rowSelect, if_pos rfl,
    List.count_range, if_pos h, smul_eq_mul]

/-- In either bank order a row below ROWS has exactly one row line set (30_encoding.md R57). -/
theorem setBits_rowSelectBytes {c : Config} {r : Nat} (hr : r < c.rows) : setBits (rowSelectBytes c r) = 1 := by
  have hbank : r / 8 < c.nsel := by
    rw [Config.nsel]
    omega
  rw [rowSelectBytes]
  cases c.bankAFirst
  case true => exact setBits_banks hbank
  case false => exact (setBits_reverse _).trans (setBits_banks hbank)

/-- Settles O14: the byte found at the bank's position is the bank's, and the row-select part has one bit set. -/
theorem rowLineSetExactlyForItsRow : Obligations.RowLineSetExactlyForItsRow := by
  intro c r w _ hr
  refine ⟨fun b hb i hi => ?_, ?_⟩
  · rw [payload_getElem?_bank hb, Option.map_some, rowSelect_getLsbD b r hi]
  · rw [rowLines_payload, setBits_rowSelectBytes hr]

end Sys2Proof.Machine
end

section
/-!
The pins during a CascadeSend (spec 40_cascade_driver.md R63): they hold the old payload until the latch edge, which
shows the new one.
-/

namespace Sys2Proof.Machine

/-- Deasserting the latch is not the edge that copies the chain to the pins (40_cascade_driver.md R69). -/
theorem driveLatch_deasserted_out (s : State) : (driveLatch .deasserted s).out = s.out := by simp

/-- The bytes go into the chain, however many they are, and the pins do not follow (40_cascade_driver.md R64, R68). -/
theorem foldl_sendByte_out (p : List Byte) (s : State) : (p.foldl sendByte s).out = s.out := by
  rw [foldl_sendByte]

/-- Settles O32: neither the deasserted latch nor a byte reaches the pins, and the edge at the end shows the chain,
which a payload of its length has filled. -/
theorem noIntermediateOutput : Obligations.NoIntermediateOutput := by
  intro s p hlen
  refine ⟨fun k _ => ?_, ?_⟩
  · rw [foldl_sendByte_out, emit_out, driveLatch_deasserted_out]
  · rw [cascadeSend_eq p s hlen]

end Sys2Proof.Machine
end

section
/-!
TICK as one transition (spec 41_frame_engine.md R73 to R76): the payload it sends, the row sequence, and the swap; and
what the other operations and events leave to it, the active row and the displayed frame.
-/

namespace Sys2Proof.Machine

/-! ## What the other operations and events leave alone -/

theorem HostChange.row_eq {s t : State} (h : HostChange s t) : t.row = s.row := by
  obtain ⟨_, _, _, _, rfl⟩ := h.eq
  rfl

/-- RESET is refused in a block whose run has begun (70_reset_and_hazards.md R124). -/
theorem exec_reset_ne_next {s : State} (hb : s.begun = true) (t : State) : exec .reset s ≠ .next t := by
  intro h
  rw [exec, execReset] at h
  obtain ⟨-, hnot, -⟩ := whenFirst_next h
  exact Bool.false_ne_true (hnot.symm.trans hb)

/-- In a running block every operation but TICK that takes place changes only what a host operation may change
(10_state.md R24). -/
theorem exec_hostChange_of_ne_tick {s t : State} {i : Instr} (hr : s.running = true) (hi : i ≠ .tick)
    (h : exec i s = .next t) : HostChange s t := by
  have hcommand : i.isCommand = true := by
    cases i with
    | reset => exact absurd h (exec_reset_ne_next ((running_iff s).mp hr).2.1 t)
    | tick => exact absurd rfl hi
    | submit b => rfl
    | shl k => rfl
    | shr k => rfl
    | publish => rfl
    | wrrow r v => rfl
  obtain ⟨-, -, hch⟩ := exec_command_next hcommand h
  exact hch

/-- A step whose event is no tick leaves the active row alone (41_frame_engine.md R75). -/
theorem step_row_of_not_tick {s t : State} (hr : s.running = true) (h : step s = .next t)
    (hi : ∀ rest, s.inputs ≠ .tick :: rest) : t.row = s.row := by
  have hr' (rest : List Input) : (s.withInputs rest).running = true := hr
  cases step_cases hr h with
  | idle _ ht => rw [ht]
  | tick rest hin _ => exact absurd hin (hi rest)
  | word w rest _ _ ht => exact ht ▸ (settle_change (hr' rest)).row_eq
  | command w rest i more _ _ hc ht =>
    obtain ⟨-, -, hch⟩ := exec_command_next hc ht
    exact hch.row_eq.trans (settle_change (hr' rest)).row_eq
  | hostStep choice rest _ ht => exact ht ▸ (hostStep_change (hr' rest) choice).row_eq

/-! ## The fields that TICK changes -/

theorem exec_tick_of_running {s : State} (hr : s.running = true) : exec .tick s = .next (advance (display s)) := by
  rw [exec, execTick, whenRunning_of_running hr]

/-- The row sequence: the next row, modulo ROWS (41_frame_engine.md R75). -/
theorem tick_row {s : State} (hr : s.running = true) : (advance (display s)).row = (s.row + 1) % s.cfg.rows := by
  obtain ⟨-, -, ht⟩ := (running_iff s).mp hr
  obtain ⟨-, hrow, -⟩ := (typed_iff s).mp ht
  rw [tick_eq ht]
  change (if s.row + 1 = s.cfg.rows then 0 else s.row + 1) = (s.row + 1) % s.cfg.rows
  split
  case isTrue hwrap => rw [hwrap, Nat.mod_self]
  case isFalse hwrap => rw [Nat.mod_eq_of_lt (by omega)]

/-- The flag is clear after a wraparound and is kept by every other TICK (41_frame_engine.md R76). -/
theorem tick_upd {s : State} (hr : s.running = true) :
    (advance (display s)).upd = if wrapping s = true then false else s.upd := by
  rw [tick_eq ((running_iff s).mp hr).2.2]
  simp [wrapping]

/-- A TICK that swaps (41_frame_engine.md R76). -/
theorem tick_swap {s : State} (hr : s.running = true) (hwrap : wrapping s = true) (hupd : s.upd = true) :
    (advance (display s)).mem = s.mem.adopt ∧ (advance (display s)).upd = false := by
  rw [tick_mem hr, tick_upd hr, if_pos ⟨hwrap, hupd⟩, if_pos hwrap]
  exact ⟨rfl, rfl⟩

/-- A TICK that does not wrap, or that finds the flag clear, leaves memory and flag alone (41_frame_engine.md R76). -/
theorem tick_no_swap {s : State} (hr : s.running = true) (h : ¬(wrapping s = true ∧ s.upd = true)) :
    (advance (display s)).mem = s.mem ∧ (advance (display s)).upd = s.upd := by
  rw [tick_mem hr, tick_upd hr, if_neg h]
  refine ⟨rfl, ?_⟩
  split
  case isTrue hwrap =>
    have hupd : s.upd = false := Bool.eq_false_iff.mpr fun hupd => h ⟨hwrap, hupd⟩
    exact hupd.symm
  case isFalse => rfl

theorem tick_pend {s : State} (hr : s.running = true) : (advance (display s)).mem.pend = s.mem.pend := by
  rw [tick_mem hr]
  split <;> rfl

/-! ## The payload of the active row -/

/-- The row-select byte by its value (30_encoding.md R55). -/
theorem rowSelect_eq (b r : Nat) : rowSelect b r = if b = r / 8 then BitVec.ofNat 8 (2 ^ (r % 8)) else 0 := by
  rw [rowSelect, onehot8, Nat.one_shiftLeft]

/-- The active row of a running block is there to display (10_state.md R25). -/
theorem cur_row_of_running {s : State} (hr : s.running = true) : ∃ w, s.mem.cur[s.row]? = some w := by
  obtain ⟨-, -, ht⟩ := (running_iff s).mp hr
  obtain ⟨hm, hrow, -⟩ := (typed_iff s).mp ht
  obtain ⟨w, hw, -⟩ := frame_read ((Memory.wf_iff _ _).mp hm).1 hrow
  exact ⟨w, hw⟩

/-! ## The obligations -/

/-- Settles O12: the payload's bytes by position, and the record of what a TICK does. -/
theorem tickNextState : Obligations.TickNextState := by
  intro s hr
  obtain ⟨w, hw⟩ := cur_row_of_running hr
  have hread : (s.mem.read .cur s.row).getD 0 = w := by rw [Memory.read_cur, hw, Option.getD_some]
  refine ⟨w, payload s.cfg s.row w, hw, payload_length _ _ _, fun j hj => payload_getElem?_pixel hj _ _,
    fun b hb => ?_, ?_⟩
  · rw [payload_getElem?_bank hb, rowSelect_eq]
  · obtain ⟨-, -, ht⟩ := (running_iff s).mp hr
    obtain ⟨-, -, hlatch, -⟩ := (typed_iff s).mp ht
    rw [exec_tick_of_running hr, tick_eq ht, hread, ← hlatch]
    rfl

/-- Settles O16: the row sequence of TICK, and what the other operations and events leave alone. -/
theorem rowStepsByTickOnly : Obligations.RowStepsByTickOnly :=
  fun _ hr => ⟨⟨_, exec_tick_of_running hr, tick_row hr⟩,
    fun _ _ hi h => (exec_hostChange_of_ne_tick hr hi h).row_eq, fun _ => step_row_of_not_tick hr⟩

/-- Settles O17: TICK by whether it swaps, and CUR among what the other operations leave alone. -/
theorem swapOnlyAtWraparoundWithFlag : Obligations.SwapOnlyAtWraparoundWithFlag := by
  intro s hr
  have hwrapping : wrapping s = true ↔ s.row + 1 = s.cfg.rows := beq_iff_eq
  refine ⟨_, exec_tick_of_running hr, tick_pend hr, fun ⟨hwrap, hupd⟩ => ?_, fun hno => ?_,
    fun i u hi h => (exec_hostChange_of_ne_tick hr hi h).cur⟩
  · obtain ⟨hmem, hclear⟩ := tick_swap hr (hwrapping.mpr hwrap) hupd
    exact ⟨by rw [hmem, Memory.adopt_cur], hclear⟩
  · obtain ⟨hmem, hkeep⟩ := tick_no_swap hr (by rwa [hwrapping])
    exact ⟨by rw [hmem], hkeep⟩

end Sys2Proof.Machine
end

section
/-!
The Frame Producer Interface (spec 42_producer_ops.md R81 to R88): the next state of each host operation and what it
refuses, the shifts row by row and pixel by pixel, and the edits that stay invisible until they are published.
-/

namespace Sys2Proof.Machine

/-! ## Refused operands -/

/-- An operation whose operands fail their check is refused by the check's name (60_exceptions.md R106). -/
theorem hostOp_of_refused {s : State} (hr : s.running = true) (r : Refusal) (k : State → State) :
    hostOp (some r) s k = .refused r :=
  whenRunning_of_running hr _

/-- A word with a bit at or above WIDTH is no row word (30_encoding.md R48). -/
theorem fits_eq_false_of_wide {width : Nat} {w : Word} (h : 2 ^ width ≤ w.toNat) : Word.fits width w = false :=
  decide_eq_false (Nat.not_lt.mpr h)

theorem checkBitmap_of_length_ne {c : Config} {b : Frame} (h : b.length ≠ c.rows) :
    checkBitmap c b = some .partialBitmap :=
  if_pos h

theorem checkBitmap_of_wide_word {c : Config} {b : Frame} (hlen : b.length = c.rows) {v : Word} (hv : v ∈ b)
    (hwide : 2 ^ c.width ≤ v.toNat) : checkBitmap c b = some .operandTooWide := by
  have hfit : b.all (Word.fits c.width) = false :=
    List.all_eq_false.mpr ⟨v, hv, by simp [fits_eq_false_of_wide hwide]⟩
  simp [checkBitmap, hlen, hfit]

/-- The operand word is checked first, whatever the row number is (log entry 11). -/
theorem checkRow_of_wide_word {c : Config} (r : BitVec 8) {v : Word} (hwide : 2 ^ c.width ≤ v.toNat) :
    checkRow c r v = some .operandTooWide := by
  simp [checkRow, fits_eq_false_of_wide hwide]

theorem checkRow_of_row_out_of_range {c : Config} {r : BitVec 8} {v : Word} (hv : Word.fits c.width v = true)
    (hrow : c.rows ≤ r.toNat) : checkRow c r v = some .rowOutOfRange := by
  have hrowOk : c.rowOk r = false := decide_eq_false (Nat.not_lt.mpr hrow)
  simp [checkRow, hv, hrowOk]

/-- Settles O27: the number of rows is checked first, then the words. -/
theorem badBitmapRefused : Obligations.BadBitmapRefused := by
  refine fun s b hr => ⟨fun hlen => ?_, fun hlen ⟨v, hv, hwide⟩ => ?_⟩
  · rw [exec, execSubmit, checkBitmap_of_length_ne hlen, hostOp_of_refused hr]
  · rw [exec, execSubmit, checkBitmap_of_wide_word hlen hv hwide, hostOp_of_refused hr]

/-! ## SUBMIT, PUBLISH and WRROW -/

/-- With no host operation in progress, one that passes its check is its effect, in either mode. -/
theorem hostOp_of_idle {s : State} (hr : s.running = true) (hfg : s.fg = .idle) (k : State → State) :
    hostOp none s k = .next (k s) := by
  rw [hostOp_of_running hr, settle_of_idle hfg]

/-- Settles O19: the frame write and the flag write, in one record. -/
theorem submitNextState : Obligations.SubmitNextState :=
  fun _ _ hg hb => exec_submit_of_guarded hg hb

/-- Settles O25: the flag write, in one record. -/
theorem publishNextState : Obligations.PublishNextState :=
  fun _ hr hfg => hostOp_of_idle hr hfg setUpd

theorem exec_wrrow_of_idle {s : State} (hr : s.running = true) (hfg : s.fg = .idle) {r : BitVec 8} {v : Word}
    (hrow : s.cfg.rowOk r = true) (hv : Word.fits s.cfg.width v = true) :
    exec (.wrrow r v) s = .next (writeRow r.toNat v s) := by
  rw [exec, execWrrow, (checkRow_none _ _ _).mpr ⟨hrow, hv⟩, hostOp_of_idle hr hfg]

/-- A row of PEND that is in range is there to read in a running block (10_state.md R25). -/
theorem pend_row_of_running {s : State} (hr : s.running = true) {i : Nat} (hi : i < s.cfg.rows) :
    ∃ w, s.mem.pend[i]? = some w ∧ Word.fits s.cfg.width w = true := by
  obtain ⟨-, -, ht⟩ := (running_iff s).mp hr
  obtain ⟨hm, -⟩ := (typed_iff s).mp ht
  exact frame_read ((Memory.wf_iff _ _).mp hm).2 hi

/-- Settles O26: a row write reads back at its row and nowhere else, and each operand out of range is refused. -/
theorem wrrowNextState : Obligations.WrrowNextState := by
  refine fun s r v hr hfg => ⟨fun hv hrow => ?_, fun hv hrow => ?_, fun hwide => ?_⟩
  · obtain ⟨w, hw, -⟩ := pend_row_of_running hr hrow
    refine ⟨s.mem.write .pend r.toNat v,
      exec_wrrow_of_idle hr hfg (decide_eq_true hrow) ((Word.fits_iff _ _).mpr hv),
      Memory.read_write_same s.mem .pend r.toNat v w hw, fun sp j hother => ?_⟩
    have hplace : Space.pend ≠ sp ∨ r.toNat ≠ j := hother.imp (fun hcur => by simp [hcur]) Ne.symm
    exact Memory.read_write_other s.mem .pend sp r.toNat j v hplace
  · rw [exec, execWrrow, checkRow_of_row_out_of_range ((Word.fits_iff _ _).mpr hv) hrow, hostOp_of_refused hr]
  · rw [exec, execWrrow, checkRow_of_wide_word r hwide, hostOp_of_refused hr]

/-! ## A shifted row word -/

/-- A row word has no bit at or above WIDTH (10_state.md R25). -/
theorem getLsbD_of_fits {width : Nat} {w : Word} (hw : Word.fits width w = true) {j : Nat} (hj : width ≤ j) :
    w.getLsbD j = false :=
  Nat.testBit_lt_two_pow (((Word.fits_iff _ _).mp hw).trans_le (Nat.pow_le_pow_right (by decide) hj))

/-- SHL moves a bit k columns up; the low k columns are off (42_producer_ops.md R82). -/
theorem shlWord_getLsbD {c : Config} (hl : c.legal = true) (k : BitVec 8) (w : Word) {j : Nat} (hj : j < c.width) :
    (shlWord c k w).getLsbD j = (decide (k.toNat ≤ j) && w.getLsbD (j - k.toNat)) := by
  rw [BitVec.getLsbD, shlWord_toNat hl, ← Nat.shiftLeft_eq, Nat.testBit_mod_two_pow, Nat.testBit_shiftLeft,
    decide_eq_true hj, Bool.true_and, BitVec.getLsbD]

/-- SHR moves a bit k columns down; the top k columns are off (42_producer_ops.md R83). -/
theorem shrWord_getLsbD {width : Nat} (k : BitVec 8) {w : Word} (hw : Word.fits width w = true) (j : Nat) :
    (shrWord k w).getLsbD j = (decide (j + k.toNat < width) && w.getLsbD (j + k.toNat)) := by
  have hbit : (shrWord k w).getLsbD j = w.getLsbD (j + k.toNat) := by
    rw [BitVec.getLsbD, shrWord_toNat, ← Nat.shiftRight_eq_div_pow, Nat.testBit_shiftRight, Nat.add_comm,
      BitVec.getLsbD]
  rw [hbit]
  by_cases hj : j + k.toNat < width
  · rw [decide_eq_true hj, Bool.true_and]
  · rw [decide_eq_false hj, Bool.false_and, getLsbD_of_fits hw (Nat.le_of_not_lt hj)]

/-- Two left shifts of a row word in one: the truncation between them drops nothing that the second would keep
(42_producer_ops.md R82). -/
theorem shlWord_shlWord {c : Config} (hl : c.legal = true) {a b : BitVec 8} (hab : a.toNat + b.toNat ≤ 255)
    (w : Word) : shlWord c b (shlWord c a w) = shlWord c (a + b) w := by
  have hsum : (a + b).toNat = a.toNat + b.toNat := BitVec.toNat_add_of_lt (by omega)
  refine BitVec.eq_of_toNat_eq ?_
  rw [shlWord_toNat hl, shlWord_toNat hl, shlWord_toNat hl, hsum, Nat.mod_mul_mod, Nat.mul_assoc, ← Nat.pow_add]

/-- A right shift after the left shift by the same amount keeps the low WIDTH - k bits (42_producer_ops.md R83). -/
theorem shrWord_shlWord_toNat {c : Config} (hl : c.legal = true) (k : BitVec 8) (w : Word) :
    (shrWord k (shlWord c k w)).toNat = w.toNat % 2 ^ (c.width - k.toNat) := by
  rw [shrWord_toNat, shlWord_toNat hl]
  by_cases hk : k.toNat ≤ c.width
  · have hpow : 2 ^ c.width = 2 ^ (c.width - k.toNat) * 2 ^ k.toNat := by rw [← Nat.pow_add, Nat.sub_add_cancel hk]
    rw [hpow, Nat.mul_mod_mul_right, Nat.mul_div_cancel _ (Nat.two_pow_pos _)]
  · have hdvd : 2 ^ c.width ∣ w.toNat * 2 ^ k.toNat :=
      Dvd.dvd.mul_left (Nat.pow_dvd_pow 2 (by omega)) w.toNat
    have hzero : c.width - k.toNat = 0 := by omega
    rw [Nat.mod_eq_zero_of_dvd hdvd, hzero, Nat.pow_zero, Nat.mod_one, Nat.zero_div]

/-! ## A shifted frame -/

/-- Every row of PEND by `f`, all else as it was: what a shift does at the default of SHIFT_OVERWIDE. -/
def mapPend (f : Word → Word) (s : State) : State := { s with mem := s.mem.writePend (s.mem.pend.map f) }

@[simp] theorem mapPend_cfg (f : Word → Word) (s : State) : (mapPend f s).cfg = s.cfg := rfl
@[simp] theorem mapPend_pend (f : Word → Word) (s : State) : (mapPend f s).mem.pend = s.mem.pend.map f := rfl

theorem mapPend_mapPend (f g : Word → Word) (s : State) : mapPend g (mapPend f s) = mapPend (g ∘ f) s := by
  simp [mapPend, Memory.writePend]

/-- A pixel of a row that is there is a bit of its word (10_state.md R13). -/
theorem pixel_pend_of_read {m : Memory} {i : Nat} {w : Word} (hw : m.pend[i]? = some w) (j : Nat) :
    m.pixel .pend i j = w.getLsbD j := by
  simp [Memory.pixel, hw]

theorem mapPend_pixel {s : State} {i : Nat} {w : Word} (hw : s.mem.pend[i]? = some w) (f : Word → Word) (j : Nat) :
    (mapPend f s).mem.pixel .pend i j = (f w).getLsbD j :=
  pixel_pend_of_read (by simp [hw]) j

section Normative

variable {s : State} (hg : guardedRunning s = true) (hz : s.cfg.overwideZero = true)
include hg hz

theorem exec_shl_eq (k : BitVec 8) : exec (.shl k) s = .next (mapPend (shlWord s.cfg k) s) := by
  rw [exec_shl_of_guarded hg, shiftFrame_of_zero hz, mapPend]

theorem exec_shr_eq (k : BitVec 8) : exec (.shr k) s = .next (mapPend (shrWord k) s) := by
  rw [exec_shr_of_guarded hg, shiftFrame_of_zero hz, mapPend]

theorem eq_mapPend_of_exec_shl {t : State} {k : BitVec 8} (h : exec (.shl k) s = .next t) :
    t = mapPend (shlWord s.cfg k) s :=
  Host.Outcome.next.inj (h.symm.trans (exec_shl_eq hg hz k))

theorem eq_mapPend_of_exec_shr {t : State} {k : BitVec 8} (h : exec (.shr k) s = .next t) :
    t = mapPend (shrWord k) s :=
  Host.Outcome.next.inj (h.symm.trans (exec_shr_eq hg hz k))

end Normative

/-- A command leaves a guarded block guarded and running. -/
theorem guardedRunning_of_exec {s t : State} {i : Instr} (hi : i.isCommand = true) (hg : guardedRunning s = true)
    (h : exec i s = .next t) : guardedRunning t = true := by
  obtain ⟨-, -, hch⟩ := exec_command_next hi h
  exact hch.guardedRunning hg

theorem legal_of_guardedRunning {s : State} (hg : guardedRunning s = true) : s.cfg.legal = true :=
  ((running_iff s).mp ((guardedRunning_iff s).mp hg).1).1

/-- Settles O21: both shifts bit by bit, in the row the pixel lies in. -/
theorem shiftsMovePixels : Obligations.ShiftsMovePixels := by
  intro s t u k i col hg hz ht hu hi hcol
  obtain ⟨w, hw, hfit⟩ := pend_row_of_running ((guardedRunning_iff s).mp hg).1 hi
  rw [eq_mapPend_of_exec_shl hg hz ht, eq_mapPend_of_exec_shr hg hz hu, mapPend_pixel hw, mapPend_pixel hw,
    pixel_pend_of_read hw, pixel_pend_of_read hw]
  exact ⟨shlWord_getLsbD (legal_of_guardedRunning hg) k w hcol, shrWord_getLsbD k hfit col⟩

/-- Settles O22: the shifts compose row by row. -/
theorem leftShiftsCompose : Obligations.LeftShiftsCompose := by
  intro s t a b hg hz hab ht
  have hg' : guardedRunning t = true := guardedRunning_of_exec rfl hg ht
  obtain rfl := eq_mapPend_of_exec_shl hg hz ht
  have hword : shlWord s.cfg b ∘ shlWord s.cfg a = shlWord s.cfg (a + b) :=
    funext (shlWord_shlWord (legal_of_guardedRunning hg) hab)
  rw [exec_shl_eq hg' hz, exec_shl_eq hg hz, mapPend_cfg, mapPend_mapPend, hword]

/-- Settles O23: the row words of the two shifts, one after the other. -/
theorem rightAfterLeftClearsTopBits : Obligations.RightAfterLeftClearsTopBits := by
  intro s t k hg hz ht
  have hg' : guardedRunning t = true := guardedRunning_of_exec rfl hg ht
  obtain rfl := eq_mapPend_of_exec_shl hg hz ht
  refine ⟨_, exec_shr_eq hg' hz k, fun i hi => ?_⟩
  obtain ⟨w, hw, -⟩ := pend_row_of_running ((guardedRunning_iff s).mp hg).1 hi
  refine ⟨w, shrWord k (shlWord s.cfg k w), hw, by simp [hw], ?_⟩
  exact shrWord_shlWord_toNat (legal_of_guardedRunning hg) k w

/-! ## An over-wide shift -/

/-- A frame of free row words, numbered from `j` (93_implementation_defined.md U3; log entry 8). -/
def freeFrame (c : Config) (j : Nat) : Frame := (List.range c.rows).map fun i => freeRow c (j + i)

theorem freeFrame_getElem? (c : Config) (j : Nat) {i : Nat} (hi : i < c.rows) :
    (freeFrame c j)[i]? = some (freeRow c (j + i)) := by
  simp [freeFrame, hi]

theorem freeRow_toNat {c : Config} (hl : c.legal = true) (j : Nat) :
    (freeRow c j).toNat = (Config.freeWord j).toNat % 2 ^ c.width :=
  Word.trunc_toNat _ _ (Config.legal_width hl)

theorem freeFrame_frameOk {c : Config} (hl : c.legal = true) (j : Nat) : c.frameOk (freeFrame c j) = true := by
  refine (Config.frameOk_iff _ _).mpr ⟨by simp [freeFrame], fun w hw => ?_⟩
  obtain ⟨i, -, rfl⟩ := List.mem_map.mp hw
  exact freeRow_fits hl (j + i)

/-- A shift with a free result writes free rows, whatever its function of a row is (93_implementation_defined.md
U3). -/
theorem shiftFrame_of_overwide {s : State} (hlen : s.mem.pend.length = s.cfg.rows) {k : BitVec 8}
    (hover : overwide s.cfg k = true) (f : Word → Word) :
    shiftFrame k f s =
      { s with mem := s.mem.writePend (freeFrame s.cfg s.freeIdx), freeIdx := s.freeIdx + s.cfg.rows } := by
  have hpend : (s.mem.pend.mapIdx fun i w => shiftedRow s.cfg k f (s.freeIdx + i) w) =
      freeFrame s.cfg s.freeIdx := by
    refine List.ext_getElem (by simp [freeFrame, hlen]) fun i _ _ => ?_
    simp [freeFrame, shiftedRow, hover]
  rw [shiftFrame, hpend, freeUsed, if_pos hover, hlen]

/-- Settles O24: both shifts write the same free rows. -/
theorem overwideShiftIsFree : Obligations.OverwideShiftIsFree := by
  intro s k hg hz hk
  obtain ⟨hl, -, ht⟩ := (running_iff s).mp ((guardedRunning_iff s).mp hg).1
  obtain ⟨hm, -⟩ := (typed_iff s).mp ht
  obtain ⟨hlen, -⟩ := (Config.frameOk_iff _ _).mp ((Memory.wf_iff _ _).mp hm).2
  have hover : overwide s.cfg k = true := by simp [overwide, hz, hk]
  refine ⟨freeFrame s.cfg s.freeIdx, freeFrame_frameOk hl _,
    fun i hi => ⟨_, freeFrame_getElem? _ _ hi, freeRow_toNat hl _⟩, ?_, ?_⟩
  · rw [exec_shl_of_guarded hg, shiftFrame_of_overwide hlen hover]
    rfl
  · rw [exec_shr_of_guarded hg, shiftFrame_of_overwide hlen hover]
    rfl

/-! ## Edits that are not published -/

/-- A command sets the flag exactly when it publishes, and no command clears it (42_producer_ops.md R81 to R85). -/
theorem exec_upd_of_guarded {s t : State} {i : Instr} (hi : i.isCommand = true) (hg : guardedRunning s = true)
    (h : exec i s = .next t) : t.upd = (s.upd || publishes i) := by
  obtain ⟨-, hwf, -⟩ := exec_command_next hi h
  cases i with
  | reset => cases hi
  | tick => cases hi
  | submit b =>
    rw [exec_submit_of_guarded hg hwf] at h
    cases h
    exact (Bool.or_true _).symm
  | shl k =>
    rw [exec_shl_of_guarded hg] at h
    cases h
    exact (Bool.or_false _).symm
  | shr k =>
    rw [exec_shr_of_guarded hg] at h
    cases h
    exact (Bool.or_false _).symm
  | publish =>
    rw [exec_publish_of_guarded hg] at h
    cases h
    exact (Bool.or_true _).symm
  | wrrow r v =>
    obtain ⟨hrow, hv⟩ := Bool.and_eq_true_iff.mp hwf
    rw [exec_wrrow_of_guarded hg hrow hv] at h
    cases h
    exact (Bool.or_false _).symm

/-- A word that completes a command commits it (30_encoding.md R50). -/
theorem commits_of_word {s : State} {w : Word} {rest : List Input} {i : Instr} {more : List Word}
    (hi : s.inputs = .word w :: rest) (hd : decode s.cfg (s.cmdq ++ [w]) = .ok (i, more)) : s.commits = some i := by
  simp [State.commits, hi, hd]

/-- A word that completes no command commits nothing (30_encoding.md R50). -/
theorem commits_of_word_error {s : State} {w : Word} {rest : List Input} {e : DecodeError}
    (hi : s.inputs = .word w :: rest) (hd : decode s.cfg (s.cmdq ++ [w]) = .error e) : s.commits = none := by
  simp [State.commits, hi, hd]

/-- A step whose event is no tick sets the flag exactly when it commits a publication (42_producer_ops.md R88). -/
theorem step_upd_of_not_tick {s t : State} (hg : guardedRunning s = true) (h : step s = .next t)
    (hi : ∀ rest, s.inputs ≠ .tick :: rest) : t.upd = (s.upd || s.commits.any publishes) := by
  obtain ⟨hr, ha⟩ := (guardedRunning_iff s).mp hg
  obtain ⟨-, -, htyped⟩ := (running_iff s).mp hr
  have hsettle (rest : List Input) : settle (s.withInputs rest) = s.withInputs rest :=
    settle_of_guarded (s := s.withInputs rest) htyped ha
  cases step_cases hr h with
  | idle hin ht => simp [ht, State.commits, hin]
  | tick rest hin _ => exact absurd hin (hi rest)
  | word w rest hin hd ht => simp [ht, hsettle, commits_of_word_error hin hd]
  | command w rest i more hin hd hc ht =>
    have hq : guardedRunning ((s.withInputs rest).withCmdq []) = true :=
      (guardedRunning_iff _).mpr ⟨withCmdq_running (s := s.withInputs rest) hr rfl, ha⟩
    rw [hsettle] at ht
    rw [exec_upd_of_guarded hc hq ht, commits_of_word hin hd]
    rfl
  | hostStep choice rest hin ht =>
    have hstep : hostStep choice (s.withInputs rest) = s.withInputs rest :=
      hostStep_of_guarded (s := s.withInputs rest) htyped ha choice
    simp [ht, hstep, State.commits, hin]

theorem step_of_tick {s : State} {rest : List Input} (hr : s.running = true) (hi : s.inputs = .tick :: rest) :
    step s = .next (advance (display (s.withInputs rest))) := by
  rw [step_of_inputs hi]
  exact exec_tick_of_running (s := s.withInputs rest) hr

/-- Every step leaves a guarded block guarded and running. -/
theorem step_guardedRunning {s t : State} (hg : guardedRunning s = true) (h : step s = .next t) :
    guardedRunning t = true := by
  obtain ⟨hr, ha⟩ := (guardedRunning_iff s).mp hg
  obtain ⟨hrt, hcfg⟩ := stepKeepsRunning s t hr h
  exact (guardedRunning_iff t).mpr ⟨hrt, hcfg ▸ ha⟩

/-- With the flag clear, a step that commits no publication keeps the displayed frame and the flag: a TICK finds nothing
to adopt (42_producer_ops.md R88). -/
theorem step_of_unpublished {s t : State} (hg : guardedRunning s = true) (hupd : s.upd = false)
    (h : step s = .next t) (hpub : s.commits.any publishes = false) : t.mem.cur = s.mem.cur ∧ t.upd = false := by
  obtain ⟨hr, -⟩ := (guardedRunning_iff s).mp hg
  by_cases htick : ∃ rest, s.inputs = .tick :: rest
  case pos =>
    obtain ⟨rest, hin⟩ := htick
    obtain ⟨hmem, hkeep⟩ := tick_no_swap (s := s.withInputs rest) hr (by simp [hupd])
    obtain rfl := Host.Outcome.next.inj ((step_of_tick hr hin).symm.trans h)
    exact ⟨congrArg Memory.cur hmem, hkeep.trans hupd⟩
  case neg =>
    have hin : ∀ rest, s.inputs ≠ .tick :: rest := fun rest hin => htick ⟨rest, hin⟩
    exact ⟨step_cur_of_not_tick hr h hin, by rw [step_upd_of_not_tick hg h hin, hupd, hpub]; rfl⟩

/-- Settles O50, by induction on the run: each step leaves the flag clear for the next. -/
theorem unpublishedEditsInvisible : Obligations.UnpublishedEditsInvisible := by
  intro n
  induction n with
  | zero =>
    intro s t _ hupd h _
    cases h
    exact ⟨rfl, hupd⟩
  | succ n ih =>
    intro s t hg hupd h hpub
    obtain ⟨u, hstep, hrun⟩ := run_succ_next h
    rw [executed_succ_of_next hstep] at hpub
    have hnow : s.commits.any publishes = false := by
      cases hc : s.commits with
      | none => rfl
      | some i => exact hpub i (by simp [hc])
    obtain ⟨hcur, hclear⟩ := step_of_unpublished hg hupd hstep hnow
    obtain ⟨hcur', hclear'⟩ := ih u t (step_guardedRunning hg hstep) hclear hrun
      fun i hi => hpub i (List.mem_append_right _ hi)
    exact ⟨hcur'.trans hcur, hclear'⟩

end Sys2Proof.Machine
end

section
/-!
What a step of a running block shows outside (spec 43_invariants.md R91, R98 to R100): a step is a TICK, or it is
none and changes, besides the events to come and the assembler, only what a host operation may change. From this the
shape of the trace and the one row lit, which every step keeps.
-/

namespace Sys2Proof.Machine

/-! ## What a host operation leaves alone -/

/-- To change nothing is a change that a host operation may make. -/
theorem HostChange.refl {s : State} (hr : s.running = true) : HostChange s s := by
  obtain ⟨-, -, ht⟩ := (running_iff s).mp hr
  obtain ⟨hm, -, -, -, -, -, -, -, -, hfg⟩ := (typed_iff s).mp ht
  exact ⟨⟨s.mem, s.upd, s.fg, s.freeIdx, rfl⟩, rfl, hm, hfg, id⟩

/-- A host operation does not touch the assembler (10_state.md R24). -/
theorem HostChange.withCmdq {s t : State} (h : HostChange s t) (ws : List Word) :
    HostChange (s.withCmdq ws) (t.withCmdq ws) := by
  obtain ⟨⟨m, u, fg, j, rfl⟩, hcur, hwf, hfg, hupd⟩ := h
  exact ⟨⟨m, u, fg, j, rfl⟩, hcur, hwf, hfg, hupd⟩

theorem HostChange.trace_eq {s t : State} (h : HostChange s t) : t.trace = s.trace := by
  obtain ⟨_, _, _, _, rfl⟩ := h.eq
  rfl

theorem HostChange.out_eq {s t : State} (h : HostChange s t) : t.out = s.out := by
  obtain ⟨_, _, _, _, rfl⟩ := h.eq
  rfl

/-- Settles O29: a command changes PEND, the flag, the operation in progress and the free-value counter, and of the
memory not CUR. -/
theorem hostOperationFrame : Obligations.HostOperationFrame := by
  intro s t i hi h
  obtain ⟨-, -, hch⟩ := exec_command_next hi h
  obtain ⟨_, _, _, _, rfl⟩ := hch.eq
  exact ⟨hch.cur, rfl, rfl, rfl, rfl, rfl, rfl, rfl, rfl, rfl, rfl, rfl, rfl⟩

/-! ## A step is a TICK or none -/

/-- The two kinds of step of a running block: a TICK, or an event that commits no TICK and changes, besides the
events to come and the assembler, only what a host operation may change (43_invariants.md R100). -/
inductive TickOrHost (s t : State) : Prop where
  | tick (rest : List Input) (hin : s.inputs = .tick :: rest) (ht : t = advance (display (s.withInputs rest)))
  | host (hin : ∀ rest, s.inputs ≠ .tick :: rest) (hcommits : s.commits ≠ some .tick) (ins : List Input)
      (ws : List Word) (hch : HostChange ((s.withInputs ins).withCmdq ws) t)

theorem commits_of_tick {s : State} {rest : List Input} (hin : s.inputs = .tick :: rest) :
    s.commits = some .tick := by
  rw [State.commits, hin]

/-- The inversion of a step, in two cases. -/
theorem step_tickOrHost {s t : State} (hr : s.running = true) (h : step s = .next t) : TickOrHost s t := by
  have hr' (rest : List Input) : (s.withInputs rest).running = true := hr
  cases step_cases hr h with
  | idle hin ht =>
    have hsame : HostChange s t := by rw [ht]; exact HostChange.refl hr
    exact .host (by simp [hin]) (by simp [State.commits, hin]) s.inputs s.cmdq hsame
  | tick rest hin ht => exact .tick rest hin ht
  | word w rest hin hd ht =>
    exact .host (by simp [hin]) (by simp [commits_of_word_error hin hd]) rest (s.cmdq ++ [w])
      (ht ▸ (settle_change (hr' rest)).withCmdq _)
  | command w rest i more hin hd hc ht =>
    have hne : i ≠ .tick := fun e => by rw [e] at hc; cases hc
    obtain ⟨-, -, hch⟩ := exec_command_next hc ht
    exact .host (by simp [hin]) (by simpa [commits_of_word hin hd] using hne) rest []
      (((settle_change (hr' rest)).withCmdq []).trans hch)
  | hostStep choice rest hin ht =>
    exact .host (by simp [hin]) (by simp [State.commits, hin]) rest s.cmdq
      (ht ▸ hostStep_change (hr' rest) choice)

/-! ## What a TICK sends -/

/-- A TICK sends the payload of the active row of CUR (41_frame_engine.md R74). -/
theorem tick_trace {s : State} (hr : s.running = true) :
    (advance (display s)).trace = s.trace ++ sendEvents (framePayload s.cfg s.mem.cur s.row) := by
  rw [tick_eq ((running_iff s).mp hr).2.2]
  rfl

/-- The pins show the payload that the TICK has sent (40_cascade_driver.md R63). -/
theorem tick_out {s : State} (hr : s.running = true) :
    (advance (display s)).out = framePayload s.cfg s.mem.cur s.row := by
  rw [tick_eq ((running_iff s).mp hr).2.2]
  rfl

@[simp] theorem framePayload_length (c : Config) (f : Frame) (r : Nat) : (framePayload c f r).length = c.n :=
  payload_length c r _

@[simp] theorem sendEvents_length (p : List Byte) : (sendEvents p).length = p.length + 2 := by
  simp [sendEvents]

theorem row_lt_of_running {s : State} (hr : s.running = true) : s.row < s.cfg.rows := by
  obtain ⟨-, -, ht⟩ := (running_iff s).mp hr
  obtain ⟨-, hrow, -⟩ := (typed_iff s).mp ht
  exact hrow

/-- One row line is set in the payload of every row below ROWS (43_invariants.md R91). -/
theorem setBits_rowLines_framePayload {c : Config} {r : Nat} (h : r < c.rows) (f : Frame) :
    setBits (rowLines c (framePayload c f r)) = 1 := by
  rw [framePayload, rowLines_payload, setBits_rowSelectBytes h]

/-- Settles O13: the row-select byte of each bank, and the one bit among them. -/
theorem tickSelectsOneRow : Obligations.TickSelectsOneRow := by
  intro s hr
  have hrow := row_lt_of_running hr
  have hbank : s.row / 8 < s.cfg.nsel := by
    rw [Config.nsel]
    omega
  refine ⟨_, framePayload s.cfg s.mem.cur s.row, exec_tick_of_running hr, tick_trace hr, ?_, fun b hb hne => ?_,
    setBits_rowLines_framePayload hrow _⟩
  · rw [framePayload, payload_getElem?_bank hbank, rowSelect, if_pos rfl]
  · rw [framePayload, payload_getElem?_bank hb, rowSelect, if_neg hne]

/-! ## The shape of the trace and the one row lit -/

/-- A block of N bytes more keeps the shape of the trace (43_invariants.md R99). -/
theorem TraceShape.append_send {c : Config} {tr : List Event} (h : TraceShape c tr) {p : List Byte}
    (hp : p.length = c.n) : TraceShape c (tr ++ sendEvents p) := by
  obtain ⟨ps, hps, rfl⟩ := h
  refine ⟨ps ++ [p], fun q hq => ?_, by simp⟩
  rcases List.mem_append.mp hq with hq | hq
  · exact hps q hq
  · rw [List.mem_singleton.mp hq, hp]

/-- Settles O43: a TICK sends one block, and nothing else sends. -/
theorem stepKeepsTraceShape : Obligations.StepKeepsTraceShape := by
  intro s t hr hshape h
  have hr' (rest : List Input) : (s.withInputs rest).running = true := hr
  cases step_tickOrHost hr h with
  | tick rest _ ht =>
    rw [ht, tick_cfg (hr' rest), tick_trace (hr' rest)]
    exact hshape.append_send (framePayload_length _ _ _)
  | host _ _ ins ws hch =>
    rw [hch.cfg_eq, hch.trace_eq]
    exact hshape

/-- Settles O44: a TICK shows a payload with one row line, and nothing else changes the pins or the trace. -/
theorem stepKeepsOneRowLit : Obligations.StepKeepsOneRowLit := by
  intro s t hr hlit h
  have hr' (rest : List Input) : (s.withInputs rest).running = true := hr
  cases step_tickOrHost hr h with
  | tick rest _ ht =>
    intro _
    rw [ht, tick_cfg (hr' rest), tick_out (hr' rest)]
    exact setBits_rowLines_framePayload (row_lt_of_running (hr' rest)) _
  | host _ _ ins ws hch =>
    rw [oneRowLit, hch.cfg_eq, hch.trace_eq, hch.out_eq]
    exact hlit

/-- Settles O45: no block has been sent yet. -/
theorem resetTraceAndPins : Obligations.ResetTraceAndPins :=
  ⟨⟨[], by simp, rfl⟩, fun hne => absurd rfl hne⟩

/-! ## The shifts as numbers -/

/-- Settles O20: both shifts row by row, as the exact product and the exact quotient. -/
theorem shiftLaws : Obligations.ShiftLaws := by
  intro s k hg hz
  obtain ⟨hr, -⟩ := (guardedRunning_iff s).mp hg
  obtain ⟨-, -, ht⟩ := (running_iff s).mp hr
  obtain ⟨hm, -⟩ := (typed_iff s).mp ht
  obtain ⟨hlen, -⟩ := (Config.frameOk_iff _ _).mp ((Memory.wf_iff _ _).mp hm).2
  refine ⟨s.mem.pend.map (shlWord s.cfg k), s.mem.pend.map (shrWord k), by simp [hlen], by simp [hlen],
    fun i hi => ?_, exec_shl_eq hg hz k, exec_shr_eq hg hz k⟩
  obtain ⟨w, hw, -⟩ := pend_row_of_running hr hi
  exact ⟨w, shlWord s.cfg k w, shrWord k w, hw, by simp [hw], by simp [hw],
    shlWord_toNat (legal_of_guardedRunning hg) k w, shrWord_toNat k w⟩

end Sys2Proof.Machine
end

section
/-!
Runs (spec 43_invariants.md R92, R94, R99, R101, R104): what single steps do, counted with the operations they
commit, is carried along a run of any length; and before the next wraparound no TICK touches CUR or the flag.
-/

namespace Sys2Proof.Machine

/-! ## Induction along a run -/

/-- What holds of no step and is handed back over one step, with the operations executed, holds of every run of a
running block. -/
theorem run_executed_induction {R : State → List Instr → State → Prop}
    (hnil : ∀ s, s.running = true → R s [] s)
    (hcons : ∀ s u t is, s.running = true → step s = .next u → R u is t → R s (s.commits.toList ++ is) t)
    (n : Nat) {s t : State} (hr : s.running = true) (h : run n s = .next t) : R s (executed n s) t := by
  induction n generalizing s with
  | zero =>
    cases h
    exact hnil _ hr
  | succ n ih =>
    obtain ⟨u, hstep, hrun⟩ := run_succ_next h
    rw [executed_succ_of_next hstep]
    exact hcons s u t _ hr hstep (ih (stepKeepsRunning s u hr hstep).1 hrun)

theorem run_running {n : Nat} {s t : State} (hr : s.running = true) (h : run n s = .next t) :
    t.running = true ∧ t.cfg = s.cfg :=
  run_induction (P := fun x => x.running = true ∧ x.cfg = s.cfg)
    (fun x y ⟨hx, hcfg⟩ hstep =>
      have hy := stepKeepsRunning x y hx hstep
      ⟨hy.1, hy.2.trans hcfg⟩)
    n s t ⟨hr, rfl⟩ h

@[simp] theorem tickCount_nil : tickCount [] = 0 := rfl

@[simp] theorem tickCount_append (is js : List Instr) : tickCount (is ++ js) = tickCount is + tickCount js :=
  List.count_append

@[simp] theorem tickCount_cons_tick (is : List Instr) : tickCount (.tick :: is) = tickCount is + 1 :=
  List.count_cons_self

theorem tickCount_cons_of_ne {i : Instr} (h : i ≠ .tick) (is : List Instr) : tickCount (i :: is) = tickCount is :=
  List.count_cons_of_ne h

theorem tickCount_commits_of_tick {s : State} {rest : List Input} (hin : s.inputs = .tick :: rest) :
    tickCount s.commits.toList = 1 := by
  rw [commits_of_tick hin]
  rfl

theorem tickCount_commits_of_ne {s : State} (h : s.commits ≠ some .tick) : tickCount s.commits.toList = 0 :=
  List.count_eq_zero.mpr fun hmem => h (Option.mem_toList.mp hmem)

/-! ## Counting the TICKs -/

/-- A step moves the row index by the TICK it commits, if it commits one (41_frame_engine.md R75). -/
theorem step_row {s t : State} (hr : s.running = true) (h : step s = .next t) :
    t.row = (s.row + tickCount s.commits.toList) % s.cfg.rows := by
  cases step_tickOrHost hr h with
  | tick rest hin ht =>
    rw [ht, tickCount_commits_of_tick hin]
    exact tick_row (s := s.withInputs rest) hr
  | host _ hcommits ins ws hch =>
    rw [hch.row_eq, tickCount_commits_of_ne hcommits, Nat.add_zero, Nat.mod_eq_of_lt (row_lt_of_running hr)]
    rfl

/-- Settles O46, along the run: each step adds the TICK it commits, modulo ROWS. -/
theorem rowCountsTicks : Obligations.RowCountsTicks := by
  intro n s t hr h
  refine run_executed_induction (R := fun s is t => t.row = (s.row + tickCount is) % s.cfg.rows)
    (fun s hr => (Nat.mod_eq_of_lt (row_lt_of_running hr)).symm) (fun s u t is hr hstep ih => ?_) n hr h
  rw [ih, step_row hr hstep, (stepKeepsRunning s u hr hstep).2, Nat.mod_add_mod, tickCount_append, Nat.add_assoc]

/-- Up to the next wraparound the row index is the sum itself (43_invariants.md R92). -/
theorem run_row_of_lt {n : Nat} {s t : State} (hr : s.running = true) (h : run n s = .next t)
    (hlt : s.row + tickCount (executed n s) < s.cfg.rows) : t.row = s.row + tickCount (executed n s) := by
  rw [rowCountsTicks n s t hr h, Nat.mod_eq_of_lt hlt]

/-- A step sends N + 2 events for the TICK it commits, if it commits one, and no other (43_invariants.md R99). -/
theorem step_trace_length {s t : State} (hr : s.running = true) (h : step s = .next t) :
    t.trace.length = s.trace.length + tickCount s.commits.toList * (s.cfg.n + 2) := by
  cases step_tickOrHost hr h with
  | tick rest hin ht =>
    rw [ht, tickCount_commits_of_tick hin, tick_trace (s := s.withInputs rest) hr]
    simp
  | host _ hcommits ins ws hch =>
    rw [hch.trace_eq, tickCount_commits_of_ne hcommits, Nat.zero_mul]
    rfl

/-- Settles O47, along the run. -/
theorem traceCountsTicks : Obligations.TraceCountsTicks := by
  intro n s t hr h
  refine run_executed_induction
    (R := fun s is t => t.trace.length = s.trace.length + tickCount is * (s.cfg.n + 2))
    (fun s _ => by simp) (fun s u t is hr hstep ih => ?_) n hr h
  rw [ih, step_trace_length hr hstep, (stepKeepsRunning s u hr hstep).2, tickCount_append, Nat.add_mul, Nat.add_assoc]

/-! ## Before the next wraparound -/

/-- The same induction for a run that has not reached the wraparound: neither has any of its steps. -/
theorem run_induction_before_wrap {R : State → List Instr → State → Prop}
    (hnil : ∀ s, s.running = true → R s [] s)
    (hcons : ∀ s u t is, s.running = true → step s = .next u → s.row + tickCount s.commits.toList < s.cfg.rows →
      R u is t → R s (s.commits.toList ++ is) t)
    (n : Nat) {s t : State} (hr : s.running = true) (h : run n s = .next t)
    (hlt : s.row + tickCount (executed n s) < s.cfg.rows) : R s (executed n s) t := by
  refine run_executed_induction (R := fun s is t => s.row + tickCount is < s.cfg.rows → R s is t)
    (fun s hr _ => hnil s hr) (fun s u t is hr hstep ih hlt => ?_) n hr h hlt
  rw [tickCount_append] at hlt
  have hnow : s.row + tickCount s.commits.toList < s.cfg.rows := by omega
  have hrow : u.row = s.row + tickCount s.commits.toList := by rw [step_row hr hstep, Nat.mod_eq_of_lt hnow]
  refine hcons s u t is hr hstep hnow (ih ?_)
  rw [hrow, (stepKeepsRunning s u hr hstep).2]
  omega

theorem wrapping_iff (s : State) : wrapping s = true ↔ s.row + 1 = s.cfg.rows := beq_iff_eq

/-- A step before the wraparound keeps CUR, and its TICK, if it commits one, keeps the flag (41_frame_engine.md
R76). -/
theorem step_before_wrap {s t : State} (hr : s.running = true) (h : step s = .next t)
    (hlt : s.row + tickCount s.commits.toList < s.cfg.rows) :
    t.mem.cur = s.mem.cur ∧ (s.commits = some .tick → t.upd = s.upd) ∧ (s.upd = true → t.upd = true) := by
  cases step_tickOrHost hr h with
  | tick rest hin ht =>
    rw [tickCount_commits_of_tick hin] at hlt
    have hno : ¬(wrapping (s.withInputs rest) = true ∧ (s.withInputs rest).upd = true) := by
      rw [wrapping_iff, withInputs_row, withInputs_cfg]
      omega
    obtain ⟨hmem, hupd⟩ := tick_no_swap (s := s.withInputs rest) hr hno
    rw [ht, hmem, hupd]
    exact ⟨rfl, fun _ => rfl, id⟩
  | host _ hcommits ins ws hch =>
    exact ⟨hch.cur, fun htick => absurd htick hcommits, hch.upd⟩

/-- Settles O48: before the wraparound no step changes CUR, in either mode. -/
theorem noTearingWithinCycle : Obligations.NoTearingWithinCycle :=
  fun n _ _ hr h => run_induction_before_wrap (R := fun s _ t => t.mem.cur = s.mem.cur) (fun _ _ => rfl)
    (fun _ _ _ _ hr hstep hlt ih => ih.trans (step_before_wrap hr hstep hlt).1) n hr h

/-- In guarded mode a step before the wraparound sets the flag exactly when it commits a publication (43_invariants.md
R101). -/
theorem step_upd_before_wrap {s t : State} (hg : guardedRunning s = true) (h : step s = .next t)
    (hlt : s.row + tickCount s.commits.toList < s.cfg.rows) : t.upd = (s.upd || s.commits.any publishes) := by
  obtain ⟨hr, -⟩ := (guardedRunning_iff s).mp hg
  by_cases htick : ∃ rest, s.inputs = .tick :: rest
  case pos =>
    obtain ⟨rest, hin⟩ := htick
    obtain ⟨-, hupd, -⟩ := step_before_wrap hr h hlt
    rw [hupd (commits_of_tick hin), commits_of_tick hin]
    exact (Bool.or_false _).symm
  case neg => exact step_upd_of_not_tick hg h fun rest hin => htick ⟨rest, hin⟩

/-- Settles O49, along the run: the flag gathers the publications of its steps. -/
theorem flagRecordsPublication : Obligations.FlagRecordsPublication := by
  intro n s t hg h hlt
  obtain ⟨hr, -⟩ := (guardedRunning_iff s).mp hg
  refine run_induction_before_wrap
    (R := fun s is t => guardedRunning s = true → t.upd = (s.upd || is.any publishes))
    (fun s _ _ => by simp) (fun s u t is _ hstep hlt ih hg => ?_) n hr h hlt hg
  have hcommits : s.commits.toList.any publishes = s.commits.any publishes := by cases s.commits <;> simp
  rw [ih (step_guardedRunning hg hstep), step_upd_before_wrap hg hstep hlt, List.any_append, hcommits, Bool.or_assoc]

/-! ## The adoption -/

/-- A flag that is set stays set up to the wraparound, in either mode (43_invariants.md R104). -/
theorem upd_kept_before_wrap {n : Nat} {s t : State} (hr : s.running = true) (h : run n s = .next t)
    (hlt : s.row + tickCount (executed n s) < s.cfg.rows) : s.upd = true → t.upd = true :=
  run_induction_before_wrap (R := fun s _ t => s.upd = true → t.upd = true) (fun _ _ => id)
    (fun _ u _ _ hr hstep hlt ih hupd =>
      have hnext : u.upd = true := (step_before_wrap hr hstep hlt).2.2 hupd
      ih hnext) n hr h hlt

/-- Settles O52: at the last row the flag is still set, and the TICK that comes there swaps. -/
theorem publicationAdoptedWithinCycle : Obligations.PublicationAdoptedWithinCycle := by
  intro n s u rest hr hupd h hticks hin
  have hlt : s.row + tickCount (executed n s) < s.cfg.rows := by omega
  obtain ⟨hru, hcfg⟩ := run_running hr h
  have hrow : u.row + 1 = u.cfg.rows := by rw [run_row_of_lt hr h hlt, hcfg, hticks]
  have hwrap : wrapping (u.withInputs rest) = true := (wrapping_iff _).mpr hrow
  have hset : u.upd = true := upd_kept_before_wrap hr h hlt hupd
  obtain ⟨hmem, hclear⟩ := tick_swap (s := u.withInputs rest) hru hwrap hset
  have hrow0 : (advance (display (u.withInputs rest))).row = 0 := by
    rw [tick_row (s := u.withInputs rest) hru, withInputs_row, withInputs_cfg, hrow, Nat.mod_self]
  exact ⟨_, step_of_tick hru hin, hclear, hrow0, congrArg Memory.cur hmem,
    tick_pend (s := u.withInputs rest) hru⟩

end Sys2Proof.Machine
end

section
/-!
Which frame is displayed in guarded mode (spec 43_invariants.md R97, R103): what a step leaves in PEND, by the
operation it commits, and how the adoption carries it to CUR.
-/

namespace Sys2Proof.Machine

/-! ## What a step leaves in PEND -/

/-- In guarded mode a step that commits nothing leaves the memory and the flag alone, and a step that commits a
command is that command in a guarded block with the same memory, flag and parameters (30_encoding.md R50,
70_reset_and_hazards.md R133). -/
inductive GuardedHostStep (s t : State) : Prop where
  | waits (hcommits : s.commits = none) (hmem : t.mem = s.mem) (hupd : t.upd = s.upd)
  | command (i : Instr) (x : State) (hcommits : s.commits = some i) (hi : i.isCommand = true)
      (hx : guardedRunning x = true) (hmem : x.mem = s.mem) (ht : exec i x = .next t)

theorem step_guarded_of_not_tick {s t : State} (hg : guardedRunning s = true) (h : step s = .next t)
    (hin : ∀ rest, s.inputs ≠ .tick :: rest) : GuardedHostStep s t := by
  obtain ⟨hr, ha⟩ := (guardedRunning_iff s).mp hg
  obtain ⟨-, -, htyped⟩ := (running_iff s).mp hr
  have hsettle (rest : List Input) : settle (s.withInputs rest) = s.withInputs rest :=
    settle_of_guarded (s := s.withInputs rest) htyped ha
  cases step_cases hr h with
  | idle hi ht => exact .waits (by simp [State.commits, hi]) (by rw [ht]) (by rw [ht])
  | tick rest hi _ => exact absurd hi (hin rest)
  | word w rest hi hd ht =>
    rw [hsettle] at ht
    exact .waits (commits_of_word_error hi hd) (by rw [ht]; rfl) (by rw [ht]; rfl)
  | command w rest i more hi hd hc ht =>
    rw [hsettle] at ht
    have hq : guardedRunning ((s.withInputs rest).withCmdq []) = true :=
      (guardedRunning_iff _).mpr ⟨withCmdq_running (s := s.withInputs rest) hr rfl, ha⟩
    exact .command i _ (commits_of_word hi hd) hc hq rfl ht
  | hostStep choice rest hi ht =>
    rw [hostStep_of_guarded (s := s.withInputs rest) htyped ha] at ht
    exact .waits (by simp [State.commits, hi]) (by rw [ht]; rfl) (by rw [ht]; rfl)

/-- PUBLISH is the one command that writes no row of PEND, and it leaves PEND alone (42_producer_ops.md R84). -/
theorem exec_pend_of_not_writesPend {s t : State} {i : Instr} (hg : guardedRunning s = true)
    (hi : i.isCommand = true) (hw : writesPend i = false) (h : exec i s = .next t) : t.mem.pend = s.mem.pend := by
  cases i with
  | publish =>
    rw [exec_publish_of_guarded hg] at h
    cases h
    rfl
  | reset => cases hi
  | tick => cases hi
  | submit b => cases hw
  | shl k => cases hw
  | shr k => cases hw
  | wrrow r v => cases hw

/-- A step that commits no write of PEND leaves PEND alone; a TICK commits none (41_frame_engine.md R76). -/
theorem step_pend_of_not_writesPend {s t : State} (hg : guardedRunning s = true) (h : step s = .next t)
    (hw : ∀ i ∈ s.commits, writesPend i = false) : t.mem.pend = s.mem.pend := by
  obtain ⟨hr, -⟩ := (guardedRunning_iff s).mp hg
  by_cases htick : ∃ rest, s.inputs = .tick :: rest
  case pos =>
    obtain ⟨rest, hin⟩ := htick
    cases (step_of_tick hr hin).symm.trans h
    exact tick_pend (s := s.withInputs rest) hr
  case neg =>
    cases step_guarded_of_not_tick hg h fun rest hin => htick ⟨rest, hin⟩ with
    | waits _ hmem _ => rw [hmem]
    | command i x hcommits hi hx hmem ht =>
      rw [exec_pend_of_not_writesPend hx hi (hw i hcommits) ht, hmem]

/-- A step that commits a SUBMIT leaves the whole bitmap in PEND, CUR as it was, and the flag set (42_producer_ops.md
R81). -/
theorem step_of_submit {s t : State} {b : Frame} (hg : guardedRunning s = true) (h : step s = .next t)
    (hb : s.commits = some (.submit b)) : t.mem.cur = s.mem.cur ∧ t.mem.pend = b ∧ t.upd = true := by
  have hin : ∀ rest, s.inputs ≠ .tick :: rest := fun rest hin => by
    rw [commits_of_tick hin] at hb
    cases hb
  cases step_guarded_of_not_tick hg h hin with
  | waits hcommits _ _ =>
    rw [hcommits] at hb
    cases hb
  | command i x hcommits hi hx hmem ht =>
    cases hcommits.symm.trans hb
    obtain ⟨-, hwf, hch⟩ := exec_command_next hi ht
    have hcur : t.mem.cur = s.mem.cur := by rw [hch.cur, hmem]
    rw [exec_submit_of_guarded hx hwf] at ht
    cases ht
    exact ⟨hcur, rfl, rfl⟩

/-! ## Whole frames -/

/-- The frame displayed is one of these frames, and so is the pending one if it is to be adopted. -/
structure ShowsOnly (A : Frame → Prop) (s : State) : Prop where
  cur : A s.mem.cur
  pend : s.upd = true → A s.mem.pend

/-- A TICK shows none but the frames shown or to be adopted before (41_frame_engine.md R76). -/
theorem tick_showsOnly {A : Frame → Prop} {s : State} (hr : s.running = true) (hA : ShowsOnly A s) :
    ShowsOnly A (advance (display s)) := by
  by_cases hswap : wrapping s = true ∧ s.upd = true
  case pos =>
    obtain ⟨hmem, hclear⟩ := tick_swap hr hswap.1 hswap.2
    exact ⟨by rw [hmem]; exact hA.pend hswap.2, by simp [hclear]⟩
  case neg =>
    obtain ⟨hmem, hupd⟩ := tick_no_swap hr hswap
    exact ⟨hmem ▸ hA.cur, hmem ▸ hupd ▸ hA.pend⟩

/-- The operation is a TICK or the SUBMIT of one of these frames. -/
def TickOrSubmitOf (A : Frame → Prop) (i : Instr) : Prop := i = .tick ∨ ∃ b, i = .submit b ∧ A b

/-- A step that commits at most a TICK or a SUBMIT of one of the frames shows none but these. -/
theorem step_showsOnly {A : Frame → Prop} {s t : State} (hg : guardedRunning s = true) (h : step s = .next t)
    (hops : ∀ i ∈ s.commits, TickOrSubmitOf A i) (hA : ShowsOnly A s) : ShowsOnly A t := by
  obtain ⟨hr, -⟩ := (guardedRunning_iff s).mp hg
  by_cases htick : ∃ rest, s.inputs = .tick :: rest
  case pos =>
    obtain ⟨rest, hin⟩ := htick
    cases (step_of_tick hr hin).symm.trans h
    exact tick_showsOnly (s := s.withInputs rest) hr ⟨hA.cur, hA.pend⟩
  case neg =>
    cases step_guarded_of_not_tick hg h fun rest hin => htick ⟨rest, hin⟩ with
    | waits _ hmem hupd => exact ⟨hmem ▸ hA.cur, hmem ▸ hupd ▸ hA.pend⟩
    | command i x hcommits hi hx hmem ht =>
      rcases hops i hcommits with rfl | ⟨b, rfl, hb⟩
      · cases hi
      · obtain ⟨hcur, hpend, -⟩ := step_of_submit hg h hcommits
        exact ⟨hcur ▸ hA.cur, fun _ => hpend ▸ hb⟩

/-- Settles O51: the frame at the start and the submitted bitmaps are all that is ever shown or to be adopted. -/
theorem displayedFrameIsWhole : Obligations.DisplayedFrameIsWhole := by
  intro n s t hg hupd h hops
  obtain ⟨hr, -⟩ := (guardedRunning_iff s).mp hg
  have hrun (A : Frame → Prop) : guardedRunning s = true → (∀ i ∈ executed n s, TickOrSubmitOf A i) →
      ShowsOnly A s → ShowsOnly A t := by
    refine run_executed_induction (R := fun s is t => guardedRunning s = true → (∀ i ∈ is, TickOrSubmitOf A i) →
      ShowsOnly A s → ShowsOnly A t) (fun _ _ _ _ => id) (fun s u t is _ hstep ih hg hops hA => ?_) n hr h
    refine ih (step_guardedRunning hg hstep) (fun i hi => hops i (List.mem_append_right _ hi))
      (step_showsOnly hg hstep (fun i hi => ?_) hA)
    exact hops i (List.mem_append_left _ (Option.mem_toList.mpr hi))
  have hwhole := hrun (fun f => f = s.mem.cur ∨ Instr.submit f ∈ executed n s) hg (fun i hi => ?_)
    ⟨.inl rfl, by simp [hupd]⟩
  · exact hwhole.cur
  · rcases hops i hi with rfl | ⟨b, rfl⟩
    · exact .inl rfl
    · exact .inr ⟨b, rfl, .inr hi⟩

/-! ## The last submission -/

/-- An operation among those of a step and of the steps after it is one of the later ones, or the step's own and the
first of all. -/
theorem toList_append_eq_append_cons {c : Option Instr} {is before after : List Instr} {i : Instr}
    (h : c.toList ++ is = before ++ i :: after) :
    (∃ later, before = c.toList ++ later ∧ is = later ++ i :: after) ∨ (before = [] ∧ c = some i ∧ is = after) := by
  cases c with
  | none => exact .inl ⟨before, rfl, h⟩
  | some j =>
    cases before with
    | nil =>
      obtain ⟨rfl, rfl⟩ := List.cons.inj h
      exact .inr ⟨rfl, rfl, rfl⟩
    | cons j' later =>
      obtain ⟨rfl, hlater⟩ := List.cons.inj h
      exact .inl ⟨later, rfl, hlater⟩

/-- A run cut at an operation that it executes: the steps before, the step that commits it, and the steps after. -/
theorem run_cut_at_executed {n : Nat} {s t : State} {i : Instr} {before after : List Instr}
    (h : run n s = .next t) (he : executed n s = before ++ i :: after) :
    ∃ (k m : Nat) (u v : State), run k s = .next u ∧ executed k s = before ∧ u.commits = some i ∧
      step u = .next v ∧ run m v = .next t ∧ executed m v = after := by
  induction n generalizing s before with
  | zero => simp at he
  | succ n ih =>
    obtain ⟨w, hstep, hrun⟩ := run_succ_next h
    rw [executed_succ_of_next hstep] at he
    rcases toList_append_eq_append_cons he with ⟨later, rfl, hlater⟩ | ⟨rfl, hcommits, hafter⟩
    · obtain ⟨k, m, u, v, hk, hexec, hcut⟩ := ih hrun hlater
      exact ⟨k + 1, m, u, v, by rw [run_succ_of_next hstep, hk], by rw [executed_succ_of_next hstep, hexec], hcut⟩
    · exact ⟨0, n, s, w, rfl, rfl, hcommits, hstep, hrun, hafter⟩

theorem run_guardedRunning {n : Nat} {s t : State} (hg : guardedRunning s = true) (h : run n s = .next t) :
    guardedRunning t = true :=
  run_induction (P := fun x => guardedRunning x = true) (fun _ _ => step_guardedRunning) n s t hg h

/-- A run in which no operation writes PEND leaves PEND alone (10_state.md R14). -/
theorem run_pend_of_not_writesPend {n : Nat} {s t : State} (hg : guardedRunning s = true) (h : run n s = .next t)
    (hw : ∀ i ∈ executed n s, writesPend i = false) : t.mem.pend = s.mem.pend := by
  obtain ⟨hr, -⟩ := (guardedRunning_iff s).mp hg
  refine run_executed_induction (R := fun s is t => guardedRunning s = true → (∀ i ∈ is, writesPend i = false) →
    t.mem.pend = s.mem.pend) (fun _ _ _ _ => rfl) (fun s u t is _ hstep ih hg hw => ?_) n hr h hg hw
  calc t.mem.pend = u.mem.pend :=
        ih (step_guardedRunning hg hstep) fun i hi => hw i (List.mem_append_right _ hi)
    _ = s.mem.pend :=
        step_pend_of_not_writesPend hg hstep fun i hi => hw i (List.mem_append_left _ (Option.mem_toList.mpr hi))

/-- Operations among which there is a TICK, cut at the last one. -/
theorem exists_last_tick {is : List Instr} (h : 0 < tickCount is) :
    ∃ before after, is = before ++ .tick :: after ∧ tickCount after = 0 := by
  obtain ⟨after, before, hrev, hno⟩ := List.eq_append_cons_of_mem (List.mem_reverse.mpr (List.count_pos_iff.mp h))
  refine ⟨before.reverse, after.reverse, ?_, List.count_eq_zero.mpr (by simpa using hno)⟩
  rw [← List.reverse_reverse is, hrev]
  simp

/-- Only the pin commits a TICK: no command word stands for one (30_encoding.md R49, R53). -/
theorem inputs_of_commits_tick {s : State} (h : s.commits = some .tick) : ∃ rest, s.inputs = .tick :: rest := by
  cases hin : s.inputs with
  | nil => simp [State.commits, hin] at h
  | cons e rest =>
    cases e with
    | tick => exact ⟨rest, rfl⟩
    | rst => simp [State.commits, hin] at h
    | hostStep choice => simp [State.commits, hin] at h
    | word w =>
      cases hd : decode s.cfg (s.cmdq ++ [w]) with
      | error e => simp [commits_of_word_error hin hd] at h
      | ok answer =>
        obtain ⟨i, more⟩ := answer
        cases (commits_of_word hin hd).symm.trans h
        cases isCommand_of_decode hd

/-- A pending frame that is published, and not written until the wraparound, is displayed once the wraparound has come
(43_invariants.md R104). -/
theorem cur_after_wrap_of_published {n : Nat} {s t : State} (hg : guardedRunning s = true) (hupd : s.upd = true)
    (h : run n s = .next t) (hw : ∀ i ∈ executed n s, writesPend i = false)
    (hticks : s.row + tickCount (executed n s) = s.cfg.rows) : t.mem.cur = s.mem.pend := by
  obtain ⟨hr, -⟩ := (guardedRunning_iff s).mp hg
  have hrow := row_lt_of_running hr
  obtain ⟨before, after, he, hno⟩ := exists_last_tick (is := executed n s) (by omega)
  obtain ⟨k, m, u, v, hk, rfl, hcommits, hstep, hm, rfl⟩ := run_cut_at_executed h he
  obtain ⟨rest, hin⟩ := inputs_of_commits_tick hcommits
  rw [he, tickCount_append, tickCount_cons_tick, hno] at hticks
  obtain ⟨v', hstep', -, hrow0, hcur, -⟩ :=
    publicationAdoptedWithinCycle k s u rest hr hupd hk (by omega) hin
  cases hstep.symm.trans hstep'
  obtain ⟨hru, -⟩ := run_running hr hk
  obtain ⟨hrv, -⟩ := stepKeepsRunning u v hru hstep
  calc t.mem.cur = v.mem.cur := noTearingWithinCycle m v t hrv hm (by
        rw [hno, hrow0]
        exact Config.legal_rows_pos ((running_iff v).mp hrv).1)
    _ = u.mem.pend := hcur
    _ = s.mem.pend := run_pend_of_not_writesPend hg hk fun i hi => hw i (by rw [he]; exact List.mem_append_left _ hi)

/-- The operations of a run are those of its first part and then those of the rest. -/
theorem executed_add {m : Nat} {s u : State} (h : run m s = .next u) (k : Nat) :
    executed (m + k) s = executed m s ++ executed k u := by
  induction m generalizing s with
  | zero =>
    cases h
    simp
  | succ m ih =>
    obtain ⟨w, hstep, hrun⟩ := run_succ_next h
    rw [Nat.add_right_comm, executed_succ_of_next hstep, executed_succ_of_next hstep, ih hrun, List.append_assoc]

/-- Within a run that just reaches the wraparound, CUR is at every point what it was at the start or what it is at the
end (43_invariants.md R94). -/
theorem cur_start_or_end {n m : Nat} {s t u : State} (hr : s.running = true) (h : run n s = .next t)
    (hticks : s.row + tickCount (executed n s) = s.cfg.rows) (hmn : m ≤ n) (hm : run m s = .next u) :
    u.mem.cur = s.mem.cur ∨ u.mem.cur = t.mem.cur := by
  obtain ⟨k, rfl⟩ := Nat.exists_eq_add_of_le hmn
  rw [executed_add hm, tickCount_append] at hticks
  have hk : run k u = .next t := by
    rw [run_add, hm] at h
    exact h
  by_cases hlt : s.row + tickCount (executed m s) < s.cfg.rows
  case pos => exact .inl (noTearingWithinCycle m s u hr hm hlt)
  case neg =>
    obtain ⟨hru, hcfg⟩ := run_running hr hm
    have hrow : u.row = 0 := by
      rw [rowCountsTicks m s u hr hm, show s.row + tickCount (executed m s) = s.cfg.rows by omega, Nat.mod_self]
    have hpos := Config.legal_rows_pos ((running_iff u).mp hru).1
    exact .inr (noTearingWithinCycle k u t hru hk (by omega)).symm

/-- Settles O53: the run cut at the last SUBMIT, which leaves its bitmap published and pending; and the two frames
that CUR can be up to the wraparound. -/
theorem lastSubmissionWins : Obligations.LastSubmissionWins := by
  intro n s t before after b2 hg h he hw hlt hticks
  obtain ⟨hr, -⟩ := (guardedRunning_iff s).mp hg
  obtain ⟨k, m, u, v, hk, rfl, hcommits, hstep, hm, rfl⟩ := run_cut_at_executed h he
  have hgu := run_guardedRunning hg hk
  obtain ⟨hru, hcfgu⟩ := run_running hr hk
  obtain ⟨-, hpend, hupd⟩ := step_of_submit hgu hstep hcommits
  obtain ⟨-, hcfgv⟩ := stepKeepsRunning u v hru hstep
  have hrowv : v.row = s.row + tickCount (executed k s) := by
    rw [step_row hru hstep, hcommits, ← run_row_of_lt hr hk hlt]
    exact Nat.mod_eq_of_lt (row_lt_of_running hru)
  have hwrap : v.row + tickCount (executed m v) = v.cfg.rows := by
    rw [hrowv, hcfgv, hcfgu, ← hticks, he, tickCount_append, tickCount_cons_of_ne (by simp), Nat.add_assoc]
  have hcur : t.mem.cur = b2 := by
    rw [cur_after_wrap_of_published (step_guardedRunning hgu hstep) hupd hm hw hwrap, hpend]
  exact ⟨hcur, fun m u hmn hrun => hcur ▸ cur_start_or_end hr h hticks hmn hrun⟩

end Sys2Proof.Machine
end

section
/-!
Refresh cycles without the host (spec 43_invariants.md R93, R96): the TICKs to the wraparound as one transition, the
cycles that follow it, and the source's first scenario.
-/

namespace Sys2Proof.Machine

/-! ## The TICKs to the wraparound -/

/-- The events of the TICKs that display `k` rows of a frame, from row `r` on (41_frame_engine.md R77). -/
def rowsEvents (c : Config) (f : Frame) (r k : Nat) : List Event :=
  (List.range' r k).flatMap fun r => sendEvents (framePayload c f r)

@[simp] theorem rowsEvents_zero (c : Config) (f : Frame) (r : Nat) : rowsEvents c f r 0 = [] := rfl

theorem rowsEvents_succ (c : Config) (f : Frame) (r k : Nat) :
    rowsEvents c f r (k + 1) = sendEvents (framePayload c f r) ++ rowsEvents c f (r + 1) k := rfl

theorem rowsEvents_length (c : Config) (f : Frame) (r k : Nat) : (rowsEvents c f r k).length = k * (c.n + 2) := by
  simp [rowsEvents, List.length_flatMap]

/-- A refresh cycle is the display of every row. -/
theorem rowsEvents_cycle (c : Config) (f : Frame) : rowsEvents c f 0 c.rows = cycleEvents c f := by
  rw [rowsEvents, cycleEvents, List.range_eq_range']

/-- The frame that the next wraparound leaves in CUR if the host does nothing (41_frame_engine.md R76). -/
def nextFrame (s : State) : Frame := if s.upd then s.mem.pend else s.mem.cur

/-- What the TICKs to the wraparound, and they alone, have made of a state: its rows from the active one on are
displayed, the next frame is current, and nothing is pending (41_frame_engine.md R73 to R77). -/
structure CycleEnd (s : State) (rest : List Input) (t : State) : Prop where
  running : t.running = true
  cfg : t.cfg = s.cfg
  inputs : t.inputs = rest
  row : t.row = 0
  upd : t.upd = false
  cur : t.mem.cur = nextFrame s
  trace : t.trace = s.trace ++ rowsEvents s.cfg s.mem.cur s.row (s.cfg.rows - s.row)

theorem tick_inputs {s : State} (hr : s.running = true) : (advance (display s)).inputs = s.inputs := by
  rw [tick_eq ((running_iff s).mp hr).2.2]

/-- The wrapping TICK ends the cycle. -/
theorem tick_cycleEnd_of_wrapping {s : State} (hr : s.running = true) (hwrap : s.row + 1 = s.cfg.rows) :
    CycleEnd s s.inputs (advance (display s)) where
  running := tick_running hr
  cfg := tick_cfg hr
  inputs := tick_inputs hr
  row := by rw [tick_row hr, hwrap, Nat.mod_self]
  upd := by rw [tick_upd hr, if_pos ((wrapping_iff s).mpr hwrap)]
  cur := by
    rw [tick_mem hr, nextFrame]
    cases s.upd <;> simp [wrapping_iff, hwrap]
  trace := by
    rw [tick_trace hr, ← hwrap, Nat.add_sub_cancel_left, rowsEvents_succ, rowsEvents_zero, List.append_nil]

/-- A TICK that does not wrap displays its row and leaves the rest of the cycle to come. -/
theorem CycleEnd.of_tick {s t : State} {rest : List Input} (hr : s.running = true) (hno : s.row + 1 < s.cfg.rows)
    (h : CycleEnd (advance (display s)) rest t) : CycleEnd s rest t := by
  have hwrap : ¬(wrapping s = true ∧ s.upd = true) := by
    rw [wrapping_iff]
    omega
  obtain ⟨hmem, hupd⟩ := tick_no_swap hr hwrap
  have hrow : (advance (display s)).row = s.row + 1 := by rw [tick_row hr, Nat.mod_eq_of_lt hno]
  refine ⟨h.running, h.cfg.trans (tick_cfg hr), h.inputs, h.row, h.upd, ?_, ?_⟩
  · rw [h.cur, nextFrame, nextFrame, hmem, hupd]
  · have hleft : s.cfg.rows - s.row = s.cfg.rows - (s.row + 1) + 1 := by omega
    rw [h.trace, tick_trace hr, tick_cfg hr, hmem, hrow, hleft, rowsEvents_succ, List.append_assoc]

/-- The events still to come are no part of what a cycle displays. -/
theorem CycleEnd.of_withInputs {s t : State} {ins rest : List Input} (h : CycleEnd (s.withInputs ins) rest t) :
    CycleEnd s rest t :=
  ⟨h.running, h.cfg, h.inputs, h.row, h.upd, h.cur, h.trace⟩

/-- From any row, the TICKs to the wraparound complete and end the cycle. -/
theorem run_to_wraparound {s : State} {rest : List Input} (hr : s.running = true)
    (hin : s.inputs = List.replicate (s.cfg.rows - s.row) .tick ++ rest) :
    ∃ t, run (s.cfg.rows - s.row) s = .next t ∧ CycleEnd s rest t := by
  have hlt := row_lt_of_running hr
  generalize hk : s.cfg.rows - s.row = k at hin ⊢
  induction k generalizing s with
  | zero => omega
  | succ k ih =>
    rw [List.replicate_succ, List.cons_append] at hin
    have hr' : (s.withInputs (List.replicate k .tick ++ rest)).running = true := hr
    rw [run_succ_of_next (step_of_tick hr hin)]
    cases k with
    | zero =>
      have hwrap : s.row + 1 = s.cfg.rows := by omega
      exact ⟨_, rfl, (tick_cycleEnd_of_wrapping hr' hwrap).of_withInputs⟩
    | succ k =>
      have hno : s.row + 1 < s.cfg.rows := by omega
      have hrow : (advance (display (s.withInputs (List.replicate (k + 1) .tick ++ rest)))).row = s.row + 1 :=
        (tick_row hr').trans (Nat.mod_eq_of_lt hno)
      have hcfg := tick_cfg hr'
      obtain ⟨t, hrun, hend⟩ := ih (tick_running hr') (row_lt_of_running (tick_running hr'))
        (by rw [hcfg, hrow, withInputs_cfg]; omega) (tick_inputs hr')
      exact ⟨t, hrun, (hend.of_tick hr' hno).of_withInputs⟩

/-! ## The cycles after the wraparound -/

theorem nextFrame_of_upd_false {s : State} (hupd : s.upd = false) : nextFrame s = s.mem.cur := by
  simp [nextFrame, hupd]

/-- With nothing pending, `m` cycles from row 0 on complete and display the current frame `m` times (43_invariants.md
R93). -/
theorem run_cycles (m : Nat) {s : State} (hr : s.running = true) (hrow : s.row = 0) (hupd : s.upd = false)
    (hin : s.inputs = List.replicate (m * s.cfg.rows) .tick) :
    ∃ t, run (m * s.cfg.rows) s = .next t ∧
      t.trace = s.trace ++ (List.replicate m (cycleEvents s.cfg s.mem.cur)).flatten := by
  induction m generalizing s with
  | zero => exact ⟨s, by rw [Nat.zero_mul]; rfl, by simp⟩
  | succ m ih =>
    have hsplit : (m + 1) * s.cfg.rows = s.cfg.rows - s.row + m * s.cfg.rows := by
      rw [hrow, Nat.sub_zero, Nat.add_mul, Nat.one_mul, Nat.add_comm]
    rw [hsplit, List.replicate_add] at hin
    obtain ⟨u, hrun, hend⟩ := run_to_wraparound hr hin
    have hcur : u.mem.cur = s.mem.cur := hend.cur.trans (nextFrame_of_upd_false hupd)
    obtain ⟨t, hrun', htrace⟩ := ih hend.running hend.row hend.upd (by rw [hend.inputs, hend.cfg])
    refine ⟨t, ?_, ?_⟩
    · rw [hsplit, run_add, hrun, ← hend.cfg]
      exact hrun'
    · rw [htrace, hend.trace, hend.cfg, hcur, hrow, Nat.sub_zero, rowsEvents_cycle, List.replicate_succ,
        List.flatten_cons, List.append_assoc]

/-- Settles O54: the TICKs to the wraparound, and from there whole cycles of the next frame. -/
theorem cyclesRepeatWithoutSubmission : Obligations.CyclesRepeatWithoutSubmission := by
  intro m s hr hin
  rw [List.replicate_add] at hin
  obtain ⟨u, hrun, hend⟩ := run_to_wraparound hr hin
  obtain ⟨t, hrun', htrace⟩ := run_cycles m hend.running hend.row hend.upd (by rw [hend.inputs, hend.cfg])
  refine ⟨t, rowsEvents s.cfg s.mem.cur s.row (s.cfg.rows - s.row), ?_, rowsEvents_length _ _ _ _, ?_⟩
  · rw [run_add, hrun, ← hend.cfg]
    exact hrun'
  · rw [htrace, hend.trace, hend.cfg, hend.cur]
    rfl

/-- One cycle and one TICK more: every row is displayed and then row 0 again (43_invariants.md R96). -/
theorem run_cycle_and_first_row {s : State} (hr : s.running = true) (hrow : s.row = 0) (hupd : s.upd = false)
    (hin : s.inputs = List.replicate (s.cfg.rows + 1) .tick) :
    ∃ t, run (s.cfg.rows + 1) s = .next t ∧
      t.trace = s.trace ++ cycleEvents s.cfg s.mem.cur ++ sendEvents (framePayload s.cfg s.mem.cur 0) := by
  have hrows : s.cfg.rows - s.row = s.cfg.rows := by rw [hrow, Nat.sub_zero]
  rw [List.replicate_add, ← hrows] at hin
  obtain ⟨u, hrun, hend⟩ := run_to_wraparound hr hin
  rw [hrows] at hrun
  have hcur : u.mem.cur = s.mem.cur := hend.cur.trans (nextFrame_of_upd_false hupd)
  have hstep := step_of_tick hend.running hend.inputs
  refine ⟨advance (display (u.withInputs [])), by rw [run_add, hrun]; exact (run_one u).trans hstep, ?_⟩
  rw [tick_trace (s := u.withInputs []) hend.running, withInputs_trace, withInputs_cfg, withInputs_mem, withInputs_row,
    hend.trace, hend.cfg, hcur, hend.row, hrows, hrow, rowsEvents_cycle]

/-! ## The source's first scenario -/

/-- The bitmap of the scenario: row 0 is 0b10101010 and row 1 is 0b01010101 (43_invariants.md R96). -/
def scenarioFrame : Frame := [0b10101010, 0b01010101]

/-- The cycle that displays the bitmap in the small configuration. -/
theorem scenario_cycle : cycleEvents Config.small scenarioFrame =
    sendEvents [0b00000001, 0b10101010] ++ sendEvents [0b00000010, 0b01010101] := by
  decide

theorem scenario_first_row : framePayload Config.small scenarioFrame 0 = [0b00000001, 0b10101010] := by
  decide

/-- The words of SUBMIT, from a quiet state of a guarded block, and the TICKs to the wraparound: the cycle ends as it
would with the bitmap pending and the flag set at its start (30_encoding.md R50, 42_producer_ops.md R81). -/
theorem run_submit_to_wraparound {s : State} {b : Frame} {rest : List Input} (hq : quiet s = true)
    (ha : s.cfg.submitAtomic = true) (hb : s.cfg.frameOk b = true)
    (hin : s.inputs = (Instr.submit b).events ++ (List.replicate (s.cfg.rows - s.row) .tick ++ rest)) :
    ∃ t, run ((Instr.submit b).events.length + (s.cfg.rows - s.row)) s = .next t ∧
      CycleEnd (setUpd (writeFrame b s)) rest t := by
  obtain ⟨hr, -, -⟩ := (quiet_iff s).mp hq
  have hg (ins : List Input) : guardedRunning (s.withInputs ins) = true := (guardedRunning_iff _).mpr ⟨hr, ha⟩
  have hsubmit := (commandCommitsAtLastWord s (.submit b) _ hq rfl hb hin).trans (exec_submit_of_guarded (hg _) hb)
  obtain ⟨t, hrun, hend⟩ := run_to_wraparound (run_running hr hsubmit).1 (rest := rest) rfl
  refine ⟨t, ?_, CycleEnd.of_withInputs (s := setUpd (writeFrame b s)) hend⟩
  rw [run_add, hsubmit]
  exact hrun

/-- Settles O55: the SUBMIT and the TICKs to the wraparound, which adopts the bitmap; then a whole cycle and one
TICK. -/
theorem sourceScenarioPayloads : Obligations.SourceScenarioPayloads := by
  intro s hq hcfg hin
  have hrows : 2 - s.row = s.cfg.rows - s.row := by rw [hcfg]; rfl
  rw [hrows, List.replicate_add] at hin
  obtain ⟨u, hrun, hend⟩ := run_submit_to_wraparound hq (by rw [hcfg]; rfl) (by rw [hcfg]; decide) hin
  have hcfgu : u.cfg = Config.small := hend.cfg.trans hcfg
  have hcur : u.mem.cur = scenarioFrame := hend.cur
  obtain ⟨t, hrun', htrace⟩ :=
    run_cycle_and_first_row hend.running hend.row hend.upd (by rw [hend.inputs, hcfgu]; rfl)
  rw [hcfgu] at hrun'
  refine ⟨t, u.trace, ?_, ?_, ?_⟩
  · rw [hrows, ← Nat.add_assoc, run_add]
    exact hrun ▸ hrun'
  · have hn : s.cfg.n + 2 = 4 := by rw [hcfg]; decide
    rw [hend.trace, List.length_append, rowsEvents_length, hrows]
    show s.trace.length + (s.cfg.rows - s.row) * (s.cfg.n + 2) = s.trace.length + 4 * (s.cfg.rows - s.row)
    rw [hn, Nat.mul_comm]
  · rw [htrace, hcfgu, hcur, scenario_cycle, scenario_first_row, ← List.append_assoc]

end Sys2Proof.Machine
end

section
/-!
A TICK and a host operation (spec 60_exceptions.md R110): the TICK that does not wrap as one record, which writes
PAY, the chain, the trace and ROW only, and the host operations, which neither read nor write any of these.
-/

namespace Sys2Proof.Machine

/-! ## A TICK that does not wrap -/

/-- The payload `p` is displayed and the row index steps on: what a TICK that does not wrap does
(41_frame_engine.md R73 to R75). -/
def showAndStep (p : List Byte) (s : State) : State :=
  { s with pay := p, shift := p, out := p, trace := s.trace ++ sendEvents p, row := s.row + 1 }

theorem tick_of_not_wrapping {s : State} (hr : s.running = true) (hno : wrapping s = false) :
    advance (display s) = showAndStep (framePayload s.cfg s.mem.cur s.row) s := by
  have hrow : s.row + 1 ≠ s.cfg.rows := fun h => Bool.false_ne_true (hno.symm.trans ((wrapping_iff s).mpr h))
  rw [tick_eq ((running_iff s).mp hr).2.2]
  simp only [hrow, false_and, if_false]
  rfl

/-! ## The host operations do not see it -/

section Commute

variable (p : List Byte)

@[simp] theorem showAndStep_cfg (s : State) : (showAndStep p s).cfg = s.cfg := rfl

theorem rowStep_showAndStep (s : State) (st : RowStep) :
    rowStep (showAndStep p s) st = showAndStep p (rowStep s st) := by
  cases st <;> rfl

theorem endForeground_showAndStep (s : State) :
    endForeground (showAndStep p s) = showAndStep p (endForeground s) := by
  rw [endForeground_eq, endForeground_eq]
  rfl

/-- The micro-steps left of the operation in progress do not see it either (70_reset_and_hazards.md R132). -/
theorem settle_showAndStep (s : State) : settle (showAndStep p s) = showAndStep p (settle s) := by
  have hrows : s.fg.rows.foldl rowStep (showAndStep p s) = showAndStep p (s.fg.rows.foldl rowStep s) :=
    List.foldl_hom (showAndStep p) fun x st => rowStep_showAndStep p x st
  rw [settle, settle, ← endForeground_showAndStep, ← hrows]
  rfl

/-- A frame-wide operation commutes if its whole effect does: what it begins in reference mode is its micro-steps. -/
theorem commute_frameWide {whole : State → State} (hw : Function.Commute whole (showAndStep p)) (fg : Foreground) :
    Function.Commute (frameWide whole fg) (showAndStep p) := by
  intro s
  rw [frameWide, frameWide, showAndStep_cfg]
  split
  case isTrue => exact hw s
  case isFalse => rfl

theorem commute_setUpd : Function.Commute setUpd (showAndStep p) := fun _ => rfl

theorem commute_writeFrame (f : Frame) : Function.Commute (writeFrame f) (showAndStep p) := fun _ => rfl

theorem commute_writeRow (i : Nat) (v : Word) : Function.Commute (writeRow i v) (showAndStep p) := fun _ => rfl

theorem commute_shiftFrame (k : BitVec 8) (f : Word → Word) :
    Function.Commute (shiftFrame k f) (showAndStep p) := fun _ => rfl

/-- A host operation passes its check and takes place after the row is displayed as it does before, if its effect
commutes. -/
theorem hostOp_showAndStep {check : Option Refusal} {s t : State} {k : State → State}
    (hk : Function.Commute k (showAndStep p)) (hr : (showAndStep p s).running = true)
    (h : hostOp check s k = .next t) : hostOp check (showAndStep p s) k = .next (showAndStep p t) := by
  obtain ⟨-, rfl, rfl⟩ := hostOp_next h
  rw [hostOp_of_running hr, settle_showAndStep, hk (settle s)]

/-- A command does the same to the state with the row displayed as to the state without, in both modes
(60_exceptions.md R110). -/
theorem exec_showAndStep {s t : State} {i : Instr} (hi : i.isCommand = true)
    (hr : (showAndStep p s).running = true) (h : exec i s = .next t) :
    exec i (showAndStep p s) = .next (showAndStep p t) := by
  cases i with
  | reset => cases hi
  | tick => cases hi
  | submit b =>
    have hw := (commute_setUpd p).comp_left (commute_writeFrame p b)
    exact hostOp_showAndStep p (commute_frameWide p hw (submitSteps b)) hr h
  | shl k =>
    have hw := commute_shiftFrame p k (shlWord s.cfg k)
    exact hostOp_showAndStep p (check := none) (commute_frameWide p hw (shiftSteps s.cfg.rows (RowStep.shl · k))) hr h
  | shr k =>
    have hw := commute_shiftFrame p k (shrWord k)
    exact hostOp_showAndStep p (check := none) (commute_frameWide p hw (shiftSteps s.cfg.rows (RowStep.shr · k))) hr h
  | publish => exact hostOp_showAndStep p (check := none) (commute_setUpd p) hr h
  | wrrow r v => exact hostOp_showAndStep p (commute_writeRow p r.toNat v) hr h

end Commute

/-- Settles O31: the command leaves alone what the TICK displays, so both orders display the same payload; and the
command does the same to the state with and without it. -/
theorem tickAndHostOperationCommute : Obligations.TickAndHostOperationCommute := by
  intro s a b i hi hno ha hb
  obtain ⟨hr, -, hch⟩ := exec_command_next hi ha
  have hra : a.running = true := hch.running hr
  have hnoa : wrapping a = false := by rw [wrapping, hch.row_eq, hch.cfg_eq]; exact hno
  have hbs : b = showAndStep (framePayload s.cfg s.mem.cur s.row) s := by
    rw [← tick_of_not_wrapping hr hno]
    exact Host.Outcome.next.inj (hb.symm.trans (exec_tick_of_running hr))
  have hrb : b.running = true := by
    rw [hbs, ← tick_of_not_wrapping hr hno]
    exact tick_running hr
  calc exec .tick a = .next (advance (display a)) := exec_tick_of_running hra
    _ = .next (showAndStep (framePayload a.cfg a.mem.cur a.row) a) := by rw [tick_of_not_wrapping hra hnoa]
    _ = .next (showAndStep (framePayload s.cfg s.mem.cur s.row) a) := by rw [hch.cfg_eq, hch.cur, hch.row_eq]
    _ = exec i b := by rw [hbs]; exact (exec_showAndStep _ hi (hbs ▸ hrb) ha).symm

end Sys2Proof.Machine
end

section
/-!
Reference mode (spec 70_reset_and_hazards.md R131, R132): the micro-steps of a frame-wide operation each edit a row of
their own, so that any order of them leaves the same frame (93_implementation_defined.md U19): the one that the
guarded operation writes at once. With a TICK between them a frame can be displayed that nobody submitted.
-/

namespace Sys2Proof.Machine

/-! ## A micro-step as an edit of PEND -/

/-- The word that a micro-step leaves in its row, from the word that stood there, at the default of SHIFT_OVERWIDE
(70_reset_and_hazards.md R132). -/
def RowStep.newWord (c : Config) : RowStep → Word → Word
  | .write _ v => fun _ => v
  | .shl _ k => shlWord c k
  | .shr _ k => shrWord k

/-- A frame after a micro-step: its row has the new word. -/
def RowStep.edit (c : Config) (f : Frame) (st : RowStep) : Frame := f.modify st.row (st.newWord c)

/-- Writing back a function of what was read, with any default, is editing the row: a row that is not there is neither
read nor written (20_memory.md R33). -/
theorem set_getD_eq_modify (f : Frame) (i : Nat) (h : Word → Word) (d : Word) :
    f.set i (h (f[i]?.getD d)) = f.modify i h := by
  rw [List.modify_eq_set_getElem?]
  cases hi : f[i]? with
  | none => exact List.set_eq_of_length_le (List.getElem?_eq_none_iff.mp hi)
  | some w => rfl

theorem shiftRow_of_zero {s : State} (hz : s.cfg.overwideZero = true) (i : Nat) (k : BitVec 8) (h : Word → Word) :
    shiftRow i k h s = writeFrame (s.mem.pend.modify i h) s := by
  rw [shiftRow, shiftedRow_of_zero hz, freeUsed_of_zero hz, ← set_getD_eq_modify _ i h 0]
  rfl

theorem rowStep_of_zero {s : State} (hz : s.cfg.overwideZero = true) (st : RowStep) :
    rowStep s st = writeFrame (st.edit s.cfg s.mem.pend) s := by
  cases st with
  | write i v =>
    rw [RowStep.edit, RowStep.row, RowStep.newWord, ← List.set_eq_modify]
    rfl
  | shl i k => exact shiftRow_of_zero hz i k (shlWord s.cfg k)
  | shr i k => exact shiftRow_of_zero hz i k (shrWord k)

theorem foldl_rowStep_of_zero (sts : List RowStep) {s : State} (hz : s.cfg.overwideZero = true) :
    sts.foldl rowStep s = writeFrame (sts.foldl (RowStep.edit s.cfg) s.mem.pend) s := by
  induction sts generalizing s with
  | nil => rfl
  | cons st sts ih =>
    rw [List.foldl_cons, rowStep_of_zero hz, ih (s := writeFrame (st.edit s.cfg s.mem.pend) s) hz]
    rfl

/-- Settling as one record: every micro-step left edits PEND, and then the flag is written. -/
theorem settle_of_zero {s : State} (hz : s.cfg.overwideZero = true) :
    settle s = { s with mem := s.mem.writePend (s.fg.rows.foldl (RowStep.edit s.cfg) s.mem.pend),
                        upd := s.upd || s.fg.flag, fg := .idle } := by
  rw [settle, foldl_rowStep_of_zero _ hz, endForeground_eq]
  rfl

/-! ## The order of the micro-steps -/

theorem edit_comm (c : Config) {a b : RowStep} (hab : a.row ≠ b.row) (f : Frame) :
    b.edit c (a.edit c f) = a.edit c (b.edit c f) :=
  List.modify_modify_ne _ _ f hab

/-- Micro-steps of rows that differ leave the same frame in every order (93_implementation_defined.md U19). -/
theorem foldl_edit_perm (c : Config) {as bs : List RowStep} (hp : as.Perm bs) (hnd : (as.map RowStep.row).Nodup)
    (f : Frame) : as.foldl (RowStep.edit c) f = bs.foldl (RowStep.edit c) f := by
  refine hp.foldl_eq' (fun a ha b hb f => ?_) f
  by_cases hab : a = b
  · rw [hab]
  · exact edit_comm c (fun hrow => hab (List.inj_on_of_nodup_map hnd ha hb hrow)) f

theorem hostStep_of_no_rows {s : State} (h : s.fg.rows = []) (choice : Nat) : hostStep choice s = settle s := by
  simp [hostStep, settle, h]

/-- A micro-step event takes one of the rows left, whatever its number is (log entry 25). -/
theorem hostStep_of_rows {s : State} (h : s.fg.rows ≠ []) (choice : Nat) :
    ∃ (j : Nat) (hj : j < s.fg.rows.length),
      hostStep choice s =
        { rowStep s s.fg.rows[j] with fg := { s.fg with rows := s.fg.rows.eraseIdx j } } := by
  have hj : choice % s.fg.rows.length < s.fg.rows.length := Nat.mod_lt _ (List.length_pos_iff.mpr h)
  exact ⟨_, hj, by rw [hostStep, List.getElem?_eq_getElem hj]⟩

/-- One micro-step taken before the others makes no difference to where they lead together. -/
theorem settle_hostStep {s : State} (hr : s.running = true) (hz : s.cfg.overwideZero = true) (choice : Nat) :
    settle (hostStep choice s) = settle s := by
  by_cases hrows : s.fg.rows = []
  case pos => rw [hostStep_of_no_rows hrows, settle_settle hr]
  case neg =>
    obtain ⟨hl, -, ht⟩ := (running_iff s).mp hr
    obtain ⟨-, -, -, -, -, -, -, -, -, hfg⟩ := (typed_iff s).mp ht
    obtain ⟨-, hnd, -⟩ := (fg_ok_iff _ _).mp hfg
    obtain ⟨j, hj, hstep⟩ := hostStep_of_rows hrows choice
    have hframe := foldl_edit_perm s.cfg (List.getElem_cons_eraseIdx_perm hj).symm hnd s.mem.pend
    rw [hstep, rowStep_of_zero hz, settle_of_zero hz, hframe]
    exact settle_of_zero hz

/-- As many micro-steps as there are rows left, and one more for the end, in any order: the operation has run to its
end (70_reset_and_hazards.md R132). -/
theorem foldl_hostStep {choices : List Nat} {s : State} (hr : s.running = true) (hz : s.cfg.overwideZero = true)
    (hlen : choices.length = s.fg.rows.length + 1) :
    choices.foldl (fun x k => hostStep k x) s = settle s := by
  induction choices generalizing s with
  | nil => simp at hlen
  | cons k ks ih =>
    have hks : ks.length = s.fg.rows.length := Nat.succ.inj hlen
    rw [List.foldl_cons]
    by_cases hrows : s.fg.rows = []
    case pos =>
      rw [hrows] at hks
      rw [List.eq_nil_of_length_eq_zero hks, List.foldl_nil, hostStep_of_no_rows hrows]
    case neg =>
      have hch := hostStep_change hr k
      obtain ⟨j, hj, hstep⟩ := hostStep_of_rows hrows k
      have hleft : (hostStep k s).fg.rows.length + 1 = s.fg.rows.length := by
        rw [hstep]
        exact List.length_eraseIdx_add_one hj
      rw [ih (hch.running hr) (hch.cfg_eq ▸ hz) (hks.trans hleft.symm), settle_hostStep hr hz]

/-! ## The frame that the micro-steps leave -/

/-- A row that no micro-step is for stays as it was. -/
theorem foldl_edit_getElem?_of_no_step (c : Config) {sts : List RowStep} {i : Nat} (f : Frame)
    (h : ∀ st ∈ sts, st.row ≠ i) : (sts.foldl (RowStep.edit c) f)[i]? = f[i]? := by
  induction sts generalizing f with
  | nil => rfl
  | cons st sts ih =>
    obtain ⟨hst, hsts⟩ := List.forall_mem_cons.mp h
    rw [List.foldl_cons, ih _ hsts, RowStep.edit, List.getElem?_modify_ne _ _ hst]

/-- A row holds what its micro-step has made of it: it is the only one for that row. -/
theorem foldl_edit_getElem?_of_mem (c : Config) {sts : List RowStep} (hnd : (sts.map RowStep.row).Nodup)
    {st : RowStep} (hst : st ∈ sts) (f : Frame) :
    (sts.foldl (RowStep.edit c) f)[st.row]? = f[st.row]?.map (st.newWord c) := by
  have hp : sts.Perm (st :: sts.erase st) := List.perm_cons_erase hst
  obtain ⟨hother, -⟩ := List.nodup_cons.mp ((hp.map RowStep.row).nodup_iff.mp hnd)
  rw [foldl_edit_perm c hp hnd, List.foldl_cons, foldl_edit_getElem?_of_no_step, RowStep.edit,
    List.getElem?_modify_eq]
  · rfl
  · exact fun st' hst' hrow => hother (List.mem_map.mpr ⟨st', hst', hrow⟩)

/-- The frame after the micro-steps is the frame with the word that each of them leaves in its row. -/
theorem foldl_edit_eq (c : Config) {sts : List RowStep} {f g : Frame}
    (hrows : sts.map RowStep.row = List.range f.length)
    (h : ∀ st ∈ sts, g[st.row]? = f[st.row]?.map (st.newWord c)) (hlen : g.length = f.length) :
    sts.foldl (RowStep.edit c) f = g := by
  have hnd : (sts.map RowStep.row).Nodup := hrows ▸ List.nodup_range
  refine List.ext_getElem? fun i => ?_
  by_cases hi : i < f.length
  case pos =>
    obtain ⟨st, hst, rfl⟩ := List.mem_map.mp (hrows ▸ List.mem_range.mpr hi)
    rw [foldl_edit_getElem?_of_mem c hnd hst, h st hst]
  case neg =>
    have hno : ∀ st ∈ sts, st.row ≠ i := fun st hst hrow =>
      hi (List.mem_range.mp (hrows ▸ hrow ▸ List.mem_map_of_mem hst))
    rw [foldl_edit_getElem?_of_no_step c f hno, List.getElem?_eq_none (by omega), List.getElem?_eq_none (by omega)]

theorem submitSteps_row (b : Frame) : (submitSteps b).rows.map RowStep.row = List.range b.length := by
  apply List.ext_getElem <;> simp [submitSteps, RowStep.row]

/-- The micro-steps of SUBMIT leave the bitmap (42_producer_ops.md R81). -/
theorem submitSteps_edit (c : Config) {b f : Frame} (hlen : b.length = f.length) :
    (submitSteps b).rows.foldl (RowStep.edit c) f = b := by
  refine foldl_edit_eq c (hlen ▸ submitSteps_row b) (fun st hst => ?_) hlen
  obtain ⟨i, hi, rfl⟩ := List.mem_mapIdx.mp hst
  simp [RowStep.row, RowStep.newWord, hi, hlen ▸ hi]

theorem shiftSteps_row {st : Nat → RowStep} (h : ∀ i, (st i).row = i) (n : Nat) :
    (shiftSteps n st).rows.map RowStep.row = List.range n := by
  simp [shiftSteps, Function.comp_def, h]

/-- The micro-steps of a shift leave every row shifted (42_producer_ops.md R82, R83). -/
theorem shiftSteps_edit (c : Config) {st : Nat → RowStep} {h : Word → Word} (hrow : ∀ i, (st i).row = i)
    (hword : ∀ i, (st i).newWord c = h) (f : Frame) :
    (shiftSteps f.length st).rows.foldl (RowStep.edit c) f = f.map h := by
  refine foldl_edit_eq c (shiftSteps_row hrow _) (fun st' hst' => ?_) (List.length_map h)
  obtain ⟨i, -, rfl⟩ := List.mem_map.mp hst'
  rw [hrow, hword, List.getElem?_map]

/-- Settling an operation that has just begun is the effect that it has at once in guarded mode. -/
theorem settle_submitSteps {s : State} {b : Frame} (hz : s.cfg.overwideZero = true) (hfg : s.fg = .idle)
    (hlen : b.length = s.mem.pend.length) : settle { s with fg := submitSteps b } = setUpd (writeFrame b s) := by
  rw [settle_of_zero (s := { s with fg := submitSteps b }) hz, submitSteps_edit s.cfg hlen, ← hfg]
  simp only [submitSteps, Bool.or_true]
  rfl

theorem settle_shiftSteps {s : State} {st : Nat → RowStep} {h : Word → Word} (hz : s.cfg.overwideZero = true)
    (hfg : s.fg = .idle) (hlen : s.mem.pend.length = s.cfg.rows) (hrow : ∀ i, (st i).row = i)
    (hword : ∀ i, (st i).newWord s.cfg = h) :
    settle { s with fg := shiftSteps s.cfg.rows st } = mapPend h s := by
  rw [settle_of_zero (s := { s with fg := shiftSteps s.cfg.rows st }) hz, ← hlen,
    shiftSteps_edit s.cfg hrow hword, ← hfg]
  simp only [shiftSteps, Bool.or_false]
  rfl

/-! ## The operations begun in reference mode -/

theorem frameWide_of_reference {s : State} (ha : s.cfg.submitAtomic = false) (whole : State → State)
    (fg : Foreground) : frameWide whole fg s = { s with fg := fg } := by
  simp [frameWide, ha]

section Begin

variable {s : State} (hr : s.running = true) (ha : s.cfg.submitAtomic = false) (hfg : s.fg = .idle)
include hr ha hfg

theorem exec_submit_of_reference {b : Frame} (hb : s.cfg.frameOk b = true) :
    exec (.submit b) s = .next { s with fg := submitSteps b } := by
  rw [exec, execSubmit, (checkBitmap_none _ _).mpr hb, hostOp_of_idle hr hfg, frameWide_of_reference ha]

theorem exec_shl_of_reference (k : BitVec 8) :
    exec (.shl k) s = .next { s with fg := shiftSteps s.cfg.rows (RowStep.shl · k) } := by
  rw [exec, execShl, hostOp_of_idle hr hfg, frameWide_of_reference ha]

theorem exec_shr_of_reference (k : BitVec 8) :
    exec (.shr k) s = .next { s with fg := shiftSteps s.cfg.rows (RowStep.shr · k) } := by
  rw [exec, execShr, hostOp_of_idle hr hfg, frameWide_of_reference ha]

end Begin

/-- A command that only begins, with a micro-step for every row, changes nothing yet, and its micro-steps in any order
lead where settling leads. -/
theorem reaches_of_begins {s t : State} {i : Instr} {fg : Foreground} {choices : List Nat} (hi : i.isCommand = true)
    (hz : s.cfg.overwideZero = true) (hexec : exec i s = .next { s with fg := fg })
    (hrows : fg.rows.length = s.cfg.rows) (hlen : choices.length = s.cfg.rows + 1)
    (hend : settle { s with fg := fg } = t) :
    ∃ u, exec i s = .next u ∧ u.mem = s.mem ∧ u.upd = s.upd ∧
      choices.foldl (fun x k => hostStep k x) u = t := by
  obtain ⟨hr, -, hch⟩ := exec_command_next hi hexec
  exact ⟨_, hexec, rfl, rfl, (foldl_hostStep (hch.running hr) hz (hrows ▸ hlen)).trans hend⟩

/-- The same state in guarded mode (70_reset_and_hazards.md R132). -/
def State.guarded (s : State) : State := { s with cfg := { s.cfg with submitAtomic := true } }

theorem guarded_guardedRunning {s g : State} {i : Instr} (hi : i.isCommand = true)
    (hg : exec i s.guarded = .next g) : guardedRunning s.guarded = true := by
  obtain ⟨hr, -, -⟩ := exec_command_next hi hg
  exact (guardedRunning_iff _).mpr ⟨hr, rfl⟩

theorem pend_length_of_running {s : State} (hr : s.running = true) : s.mem.pend.length = s.cfg.rows := by
  obtain ⟨-, -, ht⟩ := (running_iff s).mp hr
  obtain ⟨hm, -⟩ := (typed_iff s).mp ht
  obtain ⟨hlen, -⟩ := (Config.frameOk_iff _ _).mp ((Memory.wf_iff _ _).mp hm).2
  exact hlen

/-- Settles O57: the micro-steps lead where settling leads, in any order, and settling does what the guarded operation
does at once. -/
theorem microStepsReachGuardedResult : Obligations.MicroStepsReachGuardedResult := by
  intro s g i choices hr ha hz hfg hi (hg : exec i s.guarded = .next g) hlen
  have hpend := pend_length_of_running hr
  rcases hi with ⟨b, rfl⟩ | ⟨k, rfl⟩ | ⟨k, rfl⟩
  case inl =>
    obtain ⟨-, hb, -⟩ := exec_command_next rfl hg
    have hblen : b.length = s.cfg.rows := ((Config.frameOk_iff _ _).mp hb).1
    cases (exec_submit_of_guarded (guarded_guardedRunning rfl hg) hb).symm.trans hg
    exact reaches_of_begins rfl hz (exec_submit_of_reference hr ha hfg hb) (by simp [submitSteps, hblen]) hlen
      (settle_submitSteps hz hfg (hblen.trans hpend.symm))
  case inr.inl =>
    cases (exec_shl_eq (guarded_guardedRunning rfl hg) hz k).symm.trans hg
    exact reaches_of_begins rfl hz (exec_shl_of_reference hr ha hfg k) (by simp [shiftSteps]) hlen
      (settle_shiftSteps hz hfg hpend (fun _ => rfl) (fun _ => rfl))
  case inr.inr =>
    cases (exec_shr_eq (guarded_guardedRunning rfl hg) hz k).symm.trans hg
    exact reaches_of_begins rfl hz (exec_shr_of_reference hr ha hfg k) (by simp [shiftSteps]) hlen
      (settle_shiftSteps hz hfg hpend (fun _ => rfl) (fun _ => rfl))

/-! ## A torn frame -/

/-- The small configuration in reference mode, right after RESET. -/
def tearStart : State := State.resetOf { Config.small with submitAtomic := false }

/-- A whole SUBMIT, which the next one's first word ends; one row of that next one; and the TICKs of a cycle, which
adopt PEND as it stands (70_reset_and_hazards.md R131). -/
def tearEvents : List Input :=
  (Instr.submit [1, 2]).events ++ (Instr.submit [3, 4]).events ++ [.hostStep 0, .tick, .tick]

theorem executed_tearEvents : executed 9 (tearStart.withInputs tearEvents) =
    [.submit [1, 2], .submit [3, 4], .tick, .tick] := by
  decide

/-- Row 0 is the second bitmap's and row 1 the first one's. -/
theorem run_tearEvents : ∃ t, run 9 (tearStart.withInputs tearEvents) = .next t ∧ t.mem.cur = [3, 2] :=
  ⟨_, rfl, by decide⟩

/-- Settles O58: the second SUBMIT finds the flag of the first one set, so that the wraparound adopts half of it. -/
theorem referenceModeCanTear : Obligations.ReferenceModeCanTear := by
  obtain ⟨t, hrun, hcur⟩ := run_tearEvents
  refine ⟨tearEvents, 9, t, hrun, ?_⟩
  rw [hcur, ← tearStart, executed_tearEvents]
  exact ⟨by simp, by decide, by decide⟩

end Sys2Proof.Machine
end

section
/-!
RESET (spec 70_reset_and_hazards.md R123 to R128): its next state, what is refused before it and after it, and the
refresh cycle that follows it, which shows the frame of the reset state whatever the host does.
-/

namespace Sys2Proof.Machine

/-! ## The first refresh cycle -/

theorem rowsEvents_append (c : Config) (f : Frame) (r j k : Nat) :
    rowsEvents c f r j ++ rowsEvents c f (r + j) k = rowsEvents c f r (j + k) := by
  rw [rowsEvents, rowsEvents, rowsEvents, ← List.flatMap_append, List.range'_append_1]

/-- A step sends the active row of CUR for the TICK it commits, if it commits one, and nothing else
(41_frame_engine.md R74, 43_invariants.md R100). -/
theorem step_trace {s t : State} (hr : s.running = true) (h : step s = .next t) :
    t.trace = s.trace ++ rowsEvents s.cfg s.mem.cur s.row (tickCount s.commits.toList) := by
  cases step_tickOrHost hr h with
  | tick rest hin ht =>
    rw [ht, tickCount_commits_of_tick hin, tick_trace (s := s.withInputs rest) hr, rowsEvents_succ, rowsEvents_zero,
      List.append_nil]
    rfl
  | host _ hcommits ins ws hch =>
    rw [hch.trace_eq, tickCount_commits_of_ne hcommits, rowsEvents_zero, List.append_nil]
    rfl

/-- Up to the next wraparound and with the TICK that wraps, a run sends the rows of the frame that is current at its
start: the adoption comes after the last row is sent (41_frame_engine.md R76, R77). -/
theorem run_trace_of_le {n : Nat} {s t : State} (hr : s.running = true) (h : run n s = .next t)
    (hle : s.row + tickCount (executed n s) ≤ s.cfg.rows) :
    t.trace = s.trace ++ rowsEvents s.cfg s.mem.cur s.row (tickCount (executed n s)) := by
  refine run_executed_induction (R := fun s is t => s.row + tickCount is ≤ s.cfg.rows →
    t.trace = s.trace ++ rowsEvents s.cfg s.mem.cur s.row (tickCount is)) (fun s _ _ => by simp)
    (fun s u t is hr hstep ih hle => ?_) n hr h hle
  obtain ⟨hru, hcfg⟩ := stepKeepsRunning s u hr hstep
  rw [tickCount_append] at hle ⊢
  rw [← rowsEvents_append, ← List.append_assoc, ← step_trace hr hstep]
  by_cases hdone : tickCount is = 0
  case pos =>
    have hrow := row_lt_of_running hru
    rw [ih (by omega), hdone, rowsEvents_zero, rowsEvents_zero]
  case neg =>
    have hlt : s.row + tickCount s.commits.toList < s.cfg.rows := by omega
    have hrow : u.row = s.row + tickCount s.commits.toList := by rw [step_row hr hstep, Nat.mod_eq_of_lt hlt]
    obtain ⟨hcur, -⟩ := step_before_wrap hr hstep hlt
    rw [ih (by rw [hrow, hcfg]; omega), hrow, hcfg, hcur]

/-- Settles O56: the run starts at row 0 with the reset frame current. -/
theorem firstCycleShowsResetFrame : Obligations.FirstCycleShowsResetFrame := by
  intro c ins n t hl h hle
  have hr : ((State.resetOf c).withInputs ins).running = true := (resetOf_hasResetValues c).running hl
  rw [run_trace_of_le hr h (by simpa using hle), List.range_eq_range']
  rfl

/-! ## The next state of RESET -/

/-- Settles O34: the assignments, the four events of CascadeInit and the free values, in one record. -/
theorem resetNextState : Obligations.ResetNextState := by
  intro s hl hb hcur hpend
  refine ⟨freeBytes s.freeIdx s.cfg.n, freeBytes (s.freeIdx + s.cfg.n) s.cfg.n,
    freeBytes (s.freeIdx + 2 * s.cfg.n) s.cfg.n, s.freeIdx + 3 * s.cfg.n, freeBytes_length _ _, freeBytes_length _ _,
    freeBytes_length _ _, ?_⟩
  have hmem : (clearState s).mem =
      { cur := List.replicate s.cfg.rows 0, pend := List.replicate s.cfg.rows 0 } := by
    rw [clearState_mem, hcur, hpend]
  rw [exec, execReset, whenFirst_of_not_begun hl hb, cascadeInit_eq, ← hmem]
  rfl

/-! ## What is refused after RESET and before it -/

theorem whenFirst_of_begun {s : State} (hl : s.cfg.legal = true) (hb : s.begun = true) (k : State → Result) :
    whenFirst s k = .refused .secondReset := by
  simp [whenFirst, hl, hb]

theorem exec_reset_of_begun {s : State} (hl : s.cfg.legal = true) (hb : s.begun = true) :
    exec .reset s = .refused .secondReset := by
  rw [exec, execReset, whenFirst_of_begun hl hb]

/-- Settles O36: the guard of RESET, for the operation and for the pulse on the pin. -/
theorem secondResetRefused : Obligations.SecondResetRefused := by
  refine fun s rest hl hb => ⟨exec_reset_of_begun hl hb, fun hin => ?_⟩
  rw [step_of_inputs hin]
  exact exec_reset_of_begun (s := s.withInputs rest) hl hb

section NotBegun

variable {s : State} (hl : s.cfg.legal = true) (hb : s.begun = false)
include hl hb

theorem whenRunning_of_not_begun (k : State → Result) : whenRunning s k = .refused .beforeReset := by
  simp [whenRunning, hl, hb]

/-- That RESET has taken place is asked for before the operands are (log entry 11). -/
theorem hostOp_of_not_begun (check : Option Refusal) (k : State → State) :
    hostOp check s k = .refused .beforeReset :=
  whenRunning_of_not_begun hl hb _

theorem exec_of_not_begun {i : Instr} (hi : i ≠ .reset) : exec i s = .refused .beforeReset := by
  cases i with
  | reset => exact absurd rfl hi
  | tick => rw [exec, execTick, whenRunning_of_not_begun hl hb]
  | submit b => rw [exec, execSubmit, hostOp_of_not_begun hl hb]
  | shl k => rw [exec, execShl, hostOp_of_not_begun hl hb]
  | shr k => rw [exec, execShr, hostOp_of_not_begun hl hb]
  | publish => rw [exec, execPublish, hostOp_of_not_begun hl hb]
  | wrrow r v => rw [exec, execWrrow, hostOp_of_not_begun hl hb]

end NotBegun

/-- Settles O37: every guard but that of RESET asks for a run that has begun, and so does the command port. -/
theorem eventsBeforeResetRefused : Obligations.EventsBeforeResetRefused := by
  refine fun s hl hb => ⟨fun _ hi => exec_of_not_begun hl hb hi, fun w rest hin => ?_⟩
  rw [step_of_inputs hin, receive, receiveWord]
  exact whenRunning_of_not_begun (s := s.withInputs rest) hl hb _

end Sys2Proof.Machine
end
